-- ==== Sys2Proof/Word.lean ====
section
/-! DEFINITION. The word types of the CHIP-8 core (00_scope.md section 6, Notation).
Every value of this hardware is unsigned; widths are fixed, so each is an abbreviation of a
bit vector and all `BitVec` lemmas apply. -/

namespace Sys2Proof

/-- A memory byte, a general register, a timer, a display cell: 8 bits. -/
abbrev Byte := BitVec 8

/-- An instruction word, `I`, `pc`, a stack entry, `KEYS`, `KW`: 16 bits. -/
abbrev Word := BitVec 16

/-- The 12-bit immediate `NNN` (R91). -/
abbrev Addr12 := BitVec 12

/-- The 4-bit immediate or function code `N` (R91). -/
abbrev Nibble := BitVec 4

/-- A register index, the field `X` or `Y` (R91): every one of the 16 values names a register (R20, R21). -/
abbrev Reg := BitVec 4

end Sys2Proof
end

