-- ==== Sys2Proof/Syntax.lean ====
section
/-! DEFINITION. The instruction set: one constructor per row of spec/opcode_table.json (R95, R97).
Operands have exactly the width of their field (R91), so no ill-formed operand can be written. -/

namespace Sys2Proof

inductive Instr where
  /-- `00E0` CLS, R191. -/
  | cls
  /-- `00EE` RET, R120. -/
  | ret
  /-- `1NNN` JP nnn, R121. -/
  | jp (nnn : Addr12)
  /-- `2NNN` CALL nnn, R122. -/
  | call (nnn : Addr12)
  /-- `3XNN` SE Vx, nn, R123. -/
  | seImm (x : Reg) (nn : Byte)
  /-- `4XNN` SNE Vx, nn, R124. -/
  | sneImm (x : Reg) (nn : Byte)
  /-- `5XY0` SE Vx, Vy, R125. -/
  | seReg (x y : Reg)
  /-- `6XNN` LD Vx, nn, R141. -/
  | ldImm (x : Reg) (nn : Byte)
  /-- `7XNN` ADD Vx, nn, R142. -/
  | addImm (x : Reg) (nn : Byte)
  /-- `8XY0` LD Vx, Vy, R143. -/
  | ldReg (x y : Reg)
  /-- `8XY1` OR Vx, Vy, R144. -/
  | orReg (x y : Reg)
  /-- `8XY2` AND Vx, Vy, R145. -/
  | andReg (x y : Reg)
  /-- `8XY3` XOR Vx, Vy, R146. -/
  | xorReg (x y : Reg)
  /-- `8XY4` ADD Vx, Vy, R147. -/
  | addReg (x y : Reg)
  /-- `8XY5` SUB Vx, Vy, R148. -/
  | subReg (x y : Reg)
  /-- `8XY6` SHR Vx, Vy, R149. -/
  | shr (x y : Reg)
  /-- `8XY7` SUBN Vx, Vy, R150. -/
  | subn (x y : Reg)
  /-- `8XYE` SHL Vx, Vy, R151. -/
  | shl (x y : Reg)
  /-- `9XY0` SNE Vx, Vy, R126. -/
  | sneReg (x y : Reg)
  /-- `ANNN` LD I, nnn, R170. -/
  | ldI (nnn : Addr12)
  /-- `BNNN` JP V0, nnn, R128; its `X` is the upper nibble of `nnn`. -/
  | jpV0 (nnn : Addr12)
  /-- `CXNN` RND Vx, nn, R152. -/
  | rnd (x : Reg) (nn : Byte)
  /-- `DXYN` DRW Vx, Vy, n, R192. -/
  | drw (x y : Reg) (n : Nibble)
  /-- `EX9E` SKP Vx, R210. -/
  | skp (x : Reg)
  /-- `EXA1` SKNP Vx, R211. -/
  | sknp (x : Reg)
  /-- `FX07` LD Vx, DT, R212. -/
  | ldVxDT (x : Reg)
  /-- `FX0A` LD Vx, K, R213. -/
  | ldVxK (x : Reg)
  /-- `FX15` LD DT, Vx, R214. -/
  | ldDT (x : Reg)
  /-- `FX18` LD ST, Vx, R215. -/
  | ldST (x : Reg)
  /-- `FX1E` ADD I, Vx, R171. -/
  | addI (x : Reg)
  /-- `FX29` LD F, Vx, R172. -/
  | ldF (x : Reg)
  /-- `FX33` LD B, Vx, R173. -/
  | ldB (x : Reg)
  /-- `FX55` LD [I], Vx, R176. -/
  | storeRegs (x : Reg)
  /-- `FX65` LD Vx, [I], R177. -/
  | loadRegs (x : Reg)
deriving DecidableEq, Repr

end Sys2Proof
end

