-- ==== Sys2Proof/WellFormed.lean ====
section
/-! DEFINITION. What can be ill-formed on this hardware, and the checks that refuse it.

An `Instr` cannot be ill-formed: the type of each operand is its field (R91, R93). Two things can.
A 16-bit word may match no row of the opcode map (R95, R100); the machine runs such a word as a no-op (R230),
and `recognized` is the check a program under proof may add (93_implementation_defined.md U5).
A program may be too long for memory, and Reset refuses it (R282). -/

namespace Sys2Proof

/-- One row of the opcode map: it applies to `w` iff `w &&& mask = value` (R95). -/
structure OpcodeRow where
  mask  : Word
  value : Word
deriving DecidableEq, Repr

/-- Does the row apply to the word (R95)? -/
def OpcodeRow.applies (r : OpcodeRow) (w : Word) : Bool := w &&& r.mask == r.value

/-- R95, rows 1 to 19. -/
def opcodeRowsLow : List OpcodeRow :=
  [⟨0xFFFF, 0x00E0⟩, ⟨0xFFFF, 0x00EE⟩, ⟨0xF000, 0x1000⟩, ⟨0xF000, 0x2000⟩, ⟨0xF000, 0x3000⟩,
   ⟨0xF000, 0x4000⟩, ⟨0xF00F, 0x5000⟩, ⟨0xF000, 0x6000⟩, ⟨0xF000, 0x7000⟩, ⟨0xF00F, 0x8000⟩,
   ⟨0xF00F, 0x8001⟩, ⟨0xF00F, 0x8002⟩, ⟨0xF00F, 0x8003⟩, ⟨0xF00F, 0x8004⟩, ⟨0xF00F, 0x8005⟩,
   ⟨0xF00F, 0x8006⟩, ⟨0xF00F, 0x8007⟩, ⟨0xF00F, 0x800E⟩, ⟨0xF00F, 0x9000⟩]

/-- R95, rows 20 to 34. -/
def opcodeRowsHigh : List OpcodeRow :=
  [⟨0xF000, 0xA000⟩, ⟨0xF000, 0xB000⟩, ⟨0xF000, 0xC000⟩, ⟨0xF000, 0xD000⟩, ⟨0xF0FF, 0xE09E⟩,
   ⟨0xF0FF, 0xE0A1⟩, ⟨0xF0FF, 0xF007⟩, ⟨0xF0FF, 0xF00A⟩, ⟨0xF0FF, 0xF015⟩, ⟨0xF0FF, 0xF018⟩,
   ⟨0xF0FF, 0xF01E⟩, ⟨0xF0FF, 0xF029⟩, ⟨0xF0FF, 0xF033⟩, ⟨0xF0FF, 0xF055⟩, ⟨0xF0FF, 0xF065⟩]

/-- The opcode map of R95, its 34 rows in the spec's order. -/
def opcodeRows : List OpcodeRow := opcodeRowsLow ++ opcodeRowsHigh

/-- Does the word match a row of the opcode map (R95)? Every other word is unrecognized (R100). -/
def recognized (w : Word) : Bool := opcodeRows.any (·.applies w)

/-- R282: a program is accepted iff it fits between 0x200 and the end of memory. -/
def programFits (program : List Byte) : Bool := program.length ≤ 3584

/-- The check U5 allows on a program under proof: each of its words, read big-endian from its first byte on,
is recognized (a last odd byte is no word). The machine does not need it. -/
def programRecognized : List Byte → Bool
  | hi :: lo :: rest => recognized (hi ++ lo) && programRecognized rest
  | _ => true

end Sys2Proof
end

