-- ==== Sys2Proof/Decode.lean ====
section
/-! DEFINITION. Decoding (R90 to R96, R100) and, after it, encoding.

Decoding is total, depends on the word alone and never faults (R96). A word that matches no row is rejected by
name, and the machine executes it as a no-op (R230, Machine/Cycle.lean). -/

namespace Sys2Proof

/-! ## Fields (R91) -/

/-- The family `OP`, `w[15:12]`. -/
def opField (w : Word) : Nibble := w.extractLsb' 12 4
/-- `X`, `w[11:8]`. -/
def xField (w : Word) : Reg := w.extractLsb' 8 4
/-- `Y`, `w[7:4]`. -/
def yField (w : Word) : Reg := w.extractLsb' 4 4
/-- `N`, `w[3:0]`. -/
def nField (w : Word) : Nibble := w.extractLsb' 0 4
/-- `NN`, `w[7:0]`. -/
def nnField (w : Word) : Byte := w.extractLsb' 0 8
/-- `NNN`, `w[11:0]`. -/
def nnnField (w : Word) : Addr12 := w.extractLsb' 0 12

/-! ## The decoder (R95) -/

/-- Family 0: two fixed words (rows 1, 2). -/
def decodeFixed (nnn : Addr12) : Option Instr :=
  if nnn = 0x0E0 then some .cls
  else if nnn = 0x0EE then some .ret
  else none

/-- Family 8, keyed by the low nibble (rows 10 to 18, R98). -/
def decodeAlu (x y : Reg) (n : Nibble) : Option Instr :=
  if n = 0x0 then some (.ldReg x y)
  else if n = 0x1 then some (.orReg x y)
  else if n = 0x2 then some (.andReg x y)
  else if n = 0x3 then some (.xorReg x y)
  else if n = 0x4 then some (.addReg x y)
  else if n = 0x5 then some (.subReg x y)
  else if n = 0x6 then some (.shr x y)
  else if n = 0x7 then some (.subn x y)
  else if n = 0xE then some (.shl x y)
  else none

/-- Family E, keyed by the low byte (rows 24, 25). -/
def decodeKeySkip (x : Reg) (nn : Byte) : Option Instr :=
  if nn = 0x9E then some (.skp x)
  else if nn = 0xA1 then some (.sknp x)
  else none

/-- Family F, keyed by the low byte (rows 26 to 34). -/
def decodeMisc (x : Reg) (nn : Byte) : Option Instr :=
  if nn = 0x07 then some (.ldVxDT x)
  else if nn = 0x0A then some (.ldVxK x)
  else if nn = 0x15 then some (.ldDT x)
  else if nn = 0x18 then some (.ldST x)
  else if nn = 0x1E then some (.addI x)
  else if nn = 0x29 then some (.ldF x)
  else if nn = 0x33 then some (.ldB x)
  else if nn = 0x55 then some (.storeRegs x)
  else if nn = 0x65 then some (.loadRegs x)
  else none

/-- `decode(w)` (R96): the instruction of the row that `w` matches, `none` for UNRECOGNIZED.
"The instruction is decoded by its high nibble into one of 16 families" (R95). -/
def decodeWord (w : Word) : Option Instr :=
  if opField w = 0x0 then decodeFixed (nnnField w)
  else if opField w = 0x1 then some (.jp (nnnField w))
  else if opField w = 0x2 then some (.call (nnnField w))
  else if opField w = 0x3 then some (.seImm (xField w) (nnField w))
  else if opField w = 0x4 then some (.sneImm (xField w) (nnField w))
  else if opField w = 0x5 then
    if nField w = 0x0 then some (.seReg (xField w) (yField w)) else none
  else if opField w = 0x6 then some (.ldImm (xField w) (nnField w))
  else if opField w = 0x7 then some (.addImm (xField w) (nnField w))
  else if opField w = 0x8 then decodeAlu (xField w) (yField w) (nField w)
  else if opField w = 0x9 then
    if nField w = 0x0 then some (.sneReg (xField w) (yField w)) else none
  else if opField w = 0xA then some (.ldI (nnnField w))
  else if opField w = 0xB then some (.jpV0 (nnnField w))
  else if opField w = 0xC then some (.rnd (xField w) (nnField w))
  else if opField w = 0xD then some (.drw (xField w) (yField w) (nField w))
  else if opField w = 0xE then decodeKeySkip (xField w) (nnField w)
  else decodeMisc (xField w) (nnField w)

/-- Why bytes are not an instruction. -/
inductive DecodeReject where
  /-- The word matches no row of R95; the machine runs it as a no-op (R100, R230). -/
  | unrecognized (w : Word)
  /-- Fewer than the two bytes every instruction has (R90). -/
  | truncated
deriving DecidableEq, Repr

/-- Two bytes as an instruction word: the byte at the lower address is bits 15:8 (R63, R90). -/
def wordOfBytes (hi lo : Byte) : Word := hi ++ lo

/-- The decoder on bytes in memory order: the instruction and the bytes after it, or a named rejection. -/
def decodeBytes : List Byte → Except DecodeReject (Instr × List Byte)
  | hi :: lo :: rest =>
    match decodeWord (wordOfBytes hi lo) with
    | some i => .ok (i, rest)
    | none => .error (.unrecognized (wordOfBytes hi lo))
  | _ => .error .truncated

/-- The two bytes of a word as the hardware stores them, most significant first (R63). -/
def bytesOfWord (w : Word) : List Byte := [w.extractLsb' 8 8, w.extractLsb' 0 8]

/-- The host's view of the decoder: the instruction read from a word of `nbits` bits numbered as
spec/opcode_table.json numbers them (every bit above `nbits` is 0). -/
def decodeTableWord (nbits w : Nat) : Option Instr :=
  match decodeBytes (bytesOfWord (BitVec.ofNat 16 (w % 2 ^ nbits))) with
  | .ok (i, _) => some i
  | .error _ => none

/-! ## The encoder (R92 formats, R95 patterns) -/

/-- Format `NNN`: `OP`, then the 12-bit immediate. -/
def encodeNNN (op : Nibble) (nnn : Addr12) : Word := op ++ nnn
/-- Formats `XNN` and `X`: `OP`, `X`, then the low byte. -/
def encodeXNN (op : Nibble) (x : Reg) (nn : Byte) : Word := (op ++ x : Byte) ++ nn
/-- Format `XYN`: four nibbles. -/
def encodeXYN (op : Nibble) (x y : Reg) (n : Nibble) : Word := (op ++ x : Byte) ++ (y ++ n : Byte)

/-- The word of an instruction, from the patterns of R95. -/
def encode : Instr → Word
  | .cls => 0x00E0
  | .ret => 0x00EE
  | .jp nnn => encodeNNN 0x1 nnn
  | .call nnn => encodeNNN 0x2 nnn
  | .seImm x nn => encodeXNN 0x3 x nn
  | .sneImm x nn => encodeXNN 0x4 x nn
  | .seReg x y => encodeXYN 0x5 x y 0x0
  | .ldImm x nn => encodeXNN 0x6 x nn
  | .addImm x nn => encodeXNN 0x7 x nn
  | .ldReg x y => encodeXYN 0x8 x y 0x0
  | .orReg x y => encodeXYN 0x8 x y 0x1
  | .andReg x y => encodeXYN 0x8 x y 0x2
  | .xorReg x y => encodeXYN 0x8 x y 0x3
  | .addReg x y => encodeXYN 0x8 x y 0x4
  | .subReg x y => encodeXYN 0x8 x y 0x5
  | .shr x y => encodeXYN 0x8 x y 0x6
  | .subn x y => encodeXYN 0x8 x y 0x7
  | .shl x y => encodeXYN 0x8 x y 0xE
  | .sneReg x y => encodeXYN 0x9 x y 0x0
  | .ldI nnn => encodeNNN 0xA nnn
  | .jpV0 nnn => encodeNNN 0xB nnn
  | .rnd x nn => encodeXNN 0xC x nn
  | .drw x y n => encodeXYN 0xD x y n
  | .skp x => encodeXNN 0xE x 0x9E
  | .sknp x => encodeXNN 0xE x 0xA1
  | .ldVxDT x => encodeXNN 0xF x 0x07
  | .ldVxK x => encodeXNN 0xF x 0x0A
  | .ldDT x => encodeXNN 0xF x 0x15
  | .ldST x => encodeXNN 0xF x 0x18
  | .addI x => encodeXNN 0xF x 0x1E
  | .ldF x => encodeXNN 0xF x 0x29
  | .ldB x => encodeXNN 0xF x 0x33
  | .storeRegs x => encodeXNN 0xF x 0x55
  | .loadRegs x => encodeXNN 0xF x 0x65

/-- The instruction's two bytes in memory order. -/
def encodeBytes (i : Instr) : List Byte := bytesOfWord (encode i)

end Sys2Proof
end

