-- ==== Sys2Proof/Machine/Environment.lean ====
section
/-! DEFINITION. The environment of the core (R5, R9, R260): the operations it invokes, with their arguments, and its
side of the ports. -/

namespace Sys2Proof.Machine

/-- The three quirk toggles (R36), latched by Reset and read-only thereafter. Each defaults to false. -/
structure Quirks where
  /-- `Q_SHIFT_USES_VY`: `8XY6` and `8XYE` shift `V[Y]` instead of `V[X]`. -/
  shiftUsesVY : Bool := false
  /-- `Q_BXNN`: `BNNN` adds `V[X]` instead of `V[0]`. -/
  bxnn : Bool := false
  /-- `Q_INCREMENT_INDEX`: `FX55` and `FX65` add `X + 1` to `I`. -/
  incrementIndex : Bool := false
deriving DecidableEq, Repr

/-- The operations the environment invokes, one at a time (R5, R9), with their arguments. -/
inductive Op where
  /-- `Step(rnd)` (R6) with the byte it hands over, `none` for one that is left free (assumption 2). -/
  | step (rnd : Option Byte)
  /-- `Tick()` (R7). -/
  | tick
  /-- `SetKeys(k)` (R8). -/
  | setKeys (k : Word)
  /-- `Reset(program, quirks)` (R280). -/
  | reset (program : List Byte) (quirks : Quirks)
deriving DecidableEq, Repr, Inhabited

/-- What the environment invokes once its list of operations is used up (assumption 3). -/
inductive Tail where
  /-- Steps for ever, their bytes left free. -/
  | steps
  /-- Any operations for ever: the free values `Config.freeOp` from this index on. -/
  | free (next : Nat)
deriving DecidableEq, Repr

/-- The environment's side of the ports (R260), the MODEL'S OWN fields (assumption 3): no instruction of the core
writes any of them but `draws`, which `CXNN` advances. -/
structure Environment where
  /-- The operations the environment invokes next, the first one first. -/
  ops   : List Op
  /-- What it invokes after those. -/
  tail  : Tail
  /-- The port `rnd` in the Step in progress: the byte the environment gave, or `none` for a free one. -/
  rnd   : Option Byte
  /-- How many bytes `CXNN` has drawn: the index of the next free value `Config.freeRnd`. -/
  draws : Nat
  /-- How many `BEEP` events the environment has received (R254). -/
  beeps : Nat
deriving DecidableEq, Repr

end Sys2Proof.Machine
end

