-- ==== Sys2Proof/Machine/FontRom.lean ====
section
/-! DEFINITION. The Font ROM region (R69, R71): the open parameters `FONT_BASE` and `FONT_DATA`.

The spec leaves both open and gives each a default (D1, D2, U10: "parameter, with defaults"). They are plain data of
the machine instance, not constants: a claim about every state holds for every font (assumption 1). -/

namespace Sys2Proof.Machine

/-- `FONT_BASE` with `FONT_BASE + 80 <= 0x200`, and the 80 bytes of `FONT_DATA`. -/
structure Font where
  base : Fin 433
  data : Vector Byte 80
deriving DecidableEq, Repr

/-- What `MEM[a]` holds at Reset where no program byte is written (R70): the font's bytes, 0 elsewhere.
It is also what an address that the memory does not list reads as. -/
def Font.image (f : Font) (a : Nat) : Byte :=
  if h : f.base.val ≤ a ∧ a < f.base.val + 80 then f.data[a - f.base.val]'(by omega) else 0

/-- Glyphs 0 to 7 of the table of R71. -/
def defaultGlyphsLow : List Byte :=
  [0xF0, 0x90, 0x90, 0x90, 0xF0,  0x20, 0x60, 0x20, 0x20, 0x70,
   0xF0, 0x10, 0xF0, 0x80, 0xF0,  0xF0, 0x10, 0xF0, 0x10, 0xF0,
   0x90, 0x90, 0xF0, 0x10, 0x10,  0xF0, 0x80, 0xF0, 0x10, 0xF0,
   0xF0, 0x80, 0xF0, 0x90, 0xF0,  0xF0, 0x10, 0x20, 0x40, 0x40]

/-- Glyphs 8 to F of the table of R71. -/
def defaultGlyphsHigh : List Byte :=
  [0xF0, 0x90, 0xF0, 0x90, 0xF0,  0xF0, 0x90, 0xF0, 0x10, 0xF0,
   0xF0, 0x90, 0xF0, 0x90, 0x90,  0xE0, 0x90, 0xE0, 0x90, 0xE0,
   0xF0, 0x80, 0x80, 0x80, 0xF0,  0xE0, 0x90, 0x90, 0x90, 0xE0,
   0xF0, 0x80, 0xF0, 0x80, 0xF0,  0xF0, 0x80, 0xF0, 0x80, 0x80]

/-- PRESUMED (assumption 1): the defaults of D1 and D2, `FONT_BASE = 0x050` and the table of R71, which the spec
itself marks as general knowledge. They are the values at `State.reset` only. -/
def defaultFont : Font where
  base := 0x050
  data := ⟨(defaultGlyphsLow ++ defaultGlyphsHigh).toArray, by decide⟩

end Sys2Proof.Machine
end

