-- ==== Sys2Proof/Machine/State.lean ====
section
/-! DEFINITION. The state of the core (10_state.md), the reasons a step can stop, and the state after Reset. -/

namespace Sys2Proof.Machine

/-- `MEM` (R60), 4096 bytes held as what differs from the reset image `font.image`: addresses strictly rising, no
address of 4096 or more, and no entry equal to what its address reads as when unlisted (`Memory.wf`,
Machine/Memory.lean). -/
structure Memory where
  font  : Font
  cells : List Host.Cell
deriving DecidableEq, Repr

/-- `DISP` (R34, R190): 32 rows of 8 cells; cell `DISP[row*8 + c]` of the spec is row `row`, column `c`. -/
abbrev Display := Vector (Vector Byte 8) 32

/-- The four faults of the hardware (R240). -/
inductive Cause where
  | fetchOutOfRange
  | stackOverflow
  | stackUnderflow
  | dataAddressOutOfRange
deriving DecidableEq, Repr

/-- `STATUS` (R39). `info` is the value of R240 that the STATUS port reports (R260); no instruction reads it. -/
inductive Status where
  | running
  | faulted (cause : Cause) (info : Nat)
deriving DecidableEq, Repr

/-- Every piece of state of 10_state.md, under the spec's names, and the environment's side of the ports. -/
structure State where
  /-- `V[0..15]` (R20); `V[15]` is `VF` (R23). -/
  v      : Vector Byte 16
  /-- `I` (R32), 16 bits, never masked to 12. -/
  i      : Word
  /-- `pc` (R25), never masked, no alignment (R26, R27). -/
  pc     : Word
  /-- `SP` in 0..16 (R29, R30). -/
  sp     : Fin 17
  /-- `STACK[0..15]` (R29); entries at `SP` and above are unobservable (R31). -/
  stack  : Vector Word 16
  /-- `DT`, the delay timer (R37). -/
  dt     : Byte
  /-- `ST`, the sound timer (R37). -/
  st     : Byte
  /-- `MEM` (R60). -/
  mem    : Memory
  /-- `DISP` (R34). -/
  disp   : Display
  /-- `QUIRKS` (R36). -/
  quirks : Quirks
  /-- `KEYS` (R38), bit `k` set iff key `k` is held. -/
  keys   : Word
  /-- `KW`, the key-wait latch (R41). -/
  kw     : Word
  /-- `STATUS` (R39). -/
  status : Status
  /-- The environment (assumption 3). -/
  env    : Environment
deriving DecidableEq, Repr

/-- The reasons a step can stop with a fault. THERE IS NONE: a fault of this hardware is a state it enters
(`STATUS = Faulted`, R244, R246), which the model takes as a next state, and no behaviour is `stuck`
(93_implementation_defined.md, end of part 1). Safe. -/
inductive Fault where
deriving DecidableEq, Repr

/-- The reasons a step can refuse. -/
inductive Refusal where
  /-- Raised by `exec` alone, for an instruction without a meaning; no arm uses it. Safe. -/
  | notModelled (mnemonic : String)
  /-- Raised by the environment's operation Reset for a program of more than 3584 bytes: "Reset is refused and no
  machine state results" (R282, U18). Safe. -/
  | programTooLong (length : Nat)
deriving DecidableEq, Repr

/-- What every meaning and every step answers. -/
abbrev Result := Host.Outcome State Fault Refusal

/-- The state after `Reset` with the empty program and the default quirks (R281, R282 accepts `len = 0`), the font
parameters at their defaults and an environment that has invoked and received nothing. -/
def State.reset : State where
  v      := Vector.replicate 16 0
  i      := 0
  pc     := 0x0200
  sp     := 0
  stack  := Vector.replicate 16 0
  dt     := 0
  st     := 0
  mem    := { font := defaultFont, cells := [] }
  disp   := Vector.replicate 32 (Vector.replicate 8 0)
  quirks := {}
  keys   := 0
  kw     := 0
  status := .running
  env    := { ops := [], tail := .steps, rnd := none, draws := 0, beeps := 0 }

end Sys2Proof.Machine
end

