-- ==== Sys2Proof/Machine/Flags.lean ====
section
/-! DEFINITION. The flag outcomes of R23, each computed from the exact operands as natural numbers, and the byte
that stands for a flag. The collision flag of `DXYN` comes out of the drawing (Machine/Display.lean). -/

namespace Sys2Proof.Machine

/-- What `VF` holds for a flag outcome: 1 or 0. -/
def flagByte (b : Bool) : Byte := if b then 1 else 0

/-- Carry out of `8XY4`: `vx0 + vy0 > 255` (R147). -/
def carryOut (a b : Byte) : Bool := decide (a.toNat + b.toNat > 255)

/-- Not-borrow of `a - b`: `a >= b` before the subtraction (R148, R150). -/
def noBorrow (a b : Byte) : Bool := decide (a.toNat ≥ b.toNat)

/-- The bit `8XY6` shifts out, position 0 (R149). -/
def shiftedOutRight (a : Byte) : Bool := a.getLsbD 0

/-- The bit `8XYE` shifts out, position 7 (R151). -/
def shiftedOutLeft (a : Byte) : Bool := a.getLsbD 7

/-- The overflow of `FX1E`: the untruncated sum exceeds 0x0FFF (R171). -/
def indexOverflow (i : Word) (a : Byte) : Bool := decide (i.toNat + a.toNat > 0x0FFF)

end Sys2Proof.Machine
end

