-- ==== Sys2Proof/Config.lean ====
section
/-! DEFINITION. The values the spec leaves open for good.

The numbers the hardware fixes (R4 table: `MEM_SIZE` 4096, `PROG_BASE` 512, `PROG_MAX` 3584, 16 registers,
16 stack entries, 64 by 32 pixels, 80 font bytes) stand as literals where the rules use them.
`FONT_BASE` and `FONT_DATA` are parameters of the machine instance, held as plain data in `Memory.font`
(Machine/FontRom.lean, assumption 1), so a claim about every state is a claim about every font. -/

namespace Sys2Proof

/-- The random byte `rnd` of the `k`-th execution of `CXNN` whose Step was not given an explicit `rnd` by the
environment's schedule (R40, R152, D15, U1: "any value"). It has no body: nothing can be proved of its values,
so a claim that involves it holds for every sequence of random bytes (assumption 2). -/
opaque Config.freeRnd : Nat → Byte

/-- The `k`-th operation of an environment whose schedule is left free (R9, U16, D16: every interleaving is admitted).
It has no body, so a claim about a run under a free schedule holds for every infinite schedule (assumption 3). -/
opaque Config.freeOp : Nat → Machine.Op

end Sys2Proof
end

