-- ==== Sys2Proof/Machine/Memory.lean ====
section
/-! DEFINITION. The memory primitives (R60 to R62) and the block accesses built from them (R65, R67).
The only access width is one byte; the order of the bytes of a block is fixed here, lowest address first. -/

namespace Sys2Proof.Machine

/-- The byte listed at an address, if any. -/
def lookupCell : List Host.Cell → Nat → Option Byte
  | [], _ => none
  | (k, b) :: rest, a => if a = k then some b else lookupCell rest a

/-- Put a cell into a list with rising addresses, in place of the one at its address. -/
def insertCell (a : Nat) (b : Byte) : List Host.Cell → List Host.Cell
  | [] => [(a, b)]
  | (k, c) :: rest =>
    if a < k then (a, b) :: (k, c) :: rest
    else if a = k then (a, b) :: rest
    else (k, c) :: insertCell a b rest

/-- Take the cell at an address out of the list. -/
def eraseCell (a : Nat) : List Host.Cell → List Host.Cell
  | [] => []
  | (k, c) :: rest => if a = k then rest else (k, c) :: eraseCell a rest

/-- `MemRead(a, 1)` (R61): the listed byte, else the reset image. The rule defines it for `a <= 4095`, and no
meaning calls it beyond (R64, R65). -/
def Memory.read (m : Memory) (a : Nat) : Byte :=
  (lookupCell m.cells a).getD (m.font.image a)

/-- `MemWrite(a, 1, b)` (R61): changes exactly the addressed byte (R62). Writing what the address reads as when
unlisted takes its entry out, so that equal memories are equal data. The rule defines it for `a <= 4095`; no meaning
calls it beyond, where it changes nothing. -/
def Memory.write (m : Memory) (a : Nat) (b : Byte) : Memory :=
  if a < 4096 then
    if b = m.font.image a then { m with cells := eraseCell a m.cells }
    else { m with cells := insertCell a b m.cells }
  else m

/-- The canonical form: addresses strictly rising and below 4096, no entry equal to the reset image. -/
abbrev Memory.wf (m : Memory) : Prop :=
  m.cells.Pairwise (fun p q => p.1 < q.1) ∧ ∀ p ∈ m.cells, p.1 < 4096 ∧ p.2 ≠ m.font.image p.1

/-- Store bytes at `a`, `a+1`, ..., the first at the lowest address (R67). -/
def Memory.writeBytes (m : Memory) (a : Nat) : List Byte → Memory
  | [] => m
  | b :: bs => (m.write a b).writeBytes (a + 1) bs

/-- The `n` bytes at `a`, `a+1`, ..., lowest address first (R67). -/
def Memory.readBytes (m : Memory) (a : Nat) : Nat → List Byte
  | 0 => []
  | n + 1 => m.read a :: m.readBytes (a + 1) n

end Sys2Proof.Machine
end

