-- ==== Sys2Proof/Machine/Operands.lean ====
section
/-! DEFINITION. Operand forms (R93, R94): register operands, register blocks, immediates, the shifted operand, the
jump offset, the random byte, the key number. Every immediate is unsigned and zero-extended (R93). -/

namespace Sys2Proof.Machine

/-- Read of `V[r]`. No register is hard-wired or banked (R20). -/
def State.readV (s : State) (r : Reg) : Byte := s.v[r.toNat]'(r.isLt)

/-- `V[r] <- b`. -/
def State.writeV (s : State) (r : Reg) (b : Byte) : State :=
  { s with v := s.v.set r.toNat b r.isLt }

/-- The values of `n` registers from `V[k]` on, the block operand of `FX55` (R176). -/
def State.readBlock (s : State) (k : Nat) : Nat → List Byte
  | 0 => []
  | n + 1 => s.readV (BitVec.ofNat 4 k) :: s.readBlock (k + 1) n

/-- Write bytes to `V[k]`, `V[k+1]`, ..., the block destination of `FX65` (R177). -/
def State.writeBlock (s : State) (k : Nat) : List Byte → State
  | [] => s
  | b :: bs => (s.writeV (BitVec.ofNat 4 k) b).writeBlock (k + 1) bs

/-- `zext_16(NNN)` (R93). -/
def zextAddr (nnn : Addr12) : Word := nnn.setWidth 16

/-- `X = w[11:8]` of a `BNNN` word: the upper nibble of `NNN` (R92, R128). -/
def jumpReg (nnn : Addr12) : Reg := nnn.extractLsb' 8 4

/-- The offset of `BNNN` (R128): `V[X]` under `Q_BXNN`, else `V[0]`. -/
def State.jumpOffset (s : State) (nnn : Addr12) : Byte :=
  if s.quirks.bxnn then s.readV (jumpReg nnn) else s.readV 0

/-- The operand of `8XY6` and `8XYE` (R149, R151): `V[Y]` under `Q_SHIFT_USES_VY`, else `V[X]`. -/
def State.shiftOperand (s : State) (x y : Reg) : Byte :=
  if s.quirks.shiftUsesVY then s.readV y else s.readV x

/-- The Step input `rnd` (R40): the byte the environment gave this Step, else a free value (assumption 2). -/
def State.rndByte (s : State) : Byte :=
  match s.env.rnd with
  | some r => r
  | none => Config.freeRnd s.env.draws

/-- The address of the glyph of a byte's low nibble: `FONT_BASE + 5 * (b & 0x0F)` (R172). -/
def State.glyphAddress (s : State) (b : Byte) : Word :=
  BitVec.ofNat 16 (s.mem.font.base.val + 5 * (b.toNat % 16))

/-- The decimal digits of a byte: hundreds, tens, units (R173). -/
def decimalDigits (b : Byte) : List Byte :=
  [BitVec.ofNat 8 (b.toNat / 100), BitVec.ofNat 8 (b.toNat / 10 % 10), BitVec.ofNat 8 (b.toNat % 10)]

/-- `held(k)` (R216): a key number of 16 or more names no key. -/
def State.held (s : State) (k : Byte) : Bool := decide (k.toNat ≤ 15) && s.keys.getLsbD k.toNat

/-- The smallest `j` in 0..15 with `w[j] = 1` (R213), if any. -/
def lowestKey (w : Word) : Option Nat := (List.range 16).find? (fun j => w.getLsbD j)

end Sys2Proof.Machine
end

