-- ==== Sys2Proof/Machine/Ops.lean ====
section
/-! DEFINITION. The operations the meanings share: taking a fault, the range check of data accesses, the skip, the
result with its flag, the fetch. -/

namespace Sys2Proof.Machine

/-- `STATUS <- Faulted(cause)` with the reported `info`, and nothing else (R244). -/
def State.enterFault (s : State) (c : Cause) (info : Nat) : State := { s with status := .faulted c info }

/-- `pc0`, the address of the instruction in execution, from the advanced pc (R6). -/
def State.pc0 (s : State) : Word := s.pc - 2

/-- `raise F(info)` inside an instruction (R244): every effect of the Step is discarded, so `pc` is `pc0` again and
only `STATUS` differs from the state before the Step. No register is saved and no handler runs; there is no return
from a fault but Reset (R246), so no operation stands beside this one. -/
def raise (c : Cause) (info : Nat) (s : State) : Result :=
  .next ({ s with pc := s.pc0 }.enterFault c info)

/-- The codes of R240. -/
def Cause.code : Cause → Nat
  | .fetchOutOfRange => 1
  | .stackOverflow => 2
  | .stackUnderflow => 3
  | .dataAddressOutOfRange => 4

/-- What the STATUS port shows (R260): nothing while Running, else the code and the info. -/
def State.statusPort (s : State) : Option (Nat × Nat) :=
  match s.status with
  | .running => none
  | .faulted c info => some (c.code, info)

/-- `pc <- pc + 2`: what Step does after a fetch (R6), and what a skip does once more (R127). -/
def State.advance (s : State) : State := { s with pc := s.pc + 2 }

/-- A skip instruction: `pc <- pc + 2` on the advanced pc if the condition holds (R127). -/
def State.skipIf (s : State) (c : Bool) : State := if c then s.advance else s

/-- The result register, and `VF` last of all (R140). -/
def State.writeWithFlag (s : State) (x : Reg) (b : Byte) (flag : Bool) : State :=
  (s.writeV x b).writeV 15 (flagByte flag)

/-- Does an access to `i0 .. i0 + last` leave memory (R65, R174)? The sum is a natural number, not reduced. -/
def State.outOfRange (s : State) (last : Nat) : Bool := decide (s.i.toNat + last > 4095)

/-- The first offending address of such an access (R174). -/
def State.offendingAddress (s : State) : Nat := max s.i.toNat 4096

/-- Check the whole range before any effect, and raise `DataAddressOutOfRange` (R65, R174, R245). -/
def State.checked (s : State) (last : Nat) (t : State) : Result :=
  if s.outOfRange last then raise .dataAddressOutOfRange s.offendingAddress s else .next t

/-- R175: under `Q_INCREMENT_INDEX`, `I <- i0 + X + 1`. -/
def State.advanceIndex (s : State) (x : Reg) : State :=
  if s.quirks.incrementIndex then { s with i := BitVec.ofNat 16 (s.i.toNat + x.toNat + 1) } else s

/-- Can the two bytes at `pc` be fetched (R64)? -/
def State.fetchable (s : State) : Bool := decide (s.pc.toNat + 2 ≤ 4096)

end Sys2Proof.Machine
end

