-- ==== Sys2Proof/Machine/Alu.lean ====
section
/-! DEFINITION. Register load, arithmetic, logic, shift and random (41_alu.md). Results are modulo 256 (R153); operands
are sampled before any write and the flag is written last (R140). -/

namespace Sys2Proof.Machine

/-- `6XNN` LD Vx, nn (R141). -/
def execLdImm (x : Reg) (nn : Byte) (s : State) : Result := .next (s.writeV x nn)

/-- `7XNN` ADD Vx, nn (R142): no flag. -/
def execAddImm (x : Reg) (nn : Byte) (s : State) : Result := .next (s.writeV x (s.readV x + nn))

/-- `8XY0` LD Vx, Vy (R143). -/
def execLdReg (x y : Reg) (s : State) : Result := .next (s.writeV x (s.readV y))

/-- `8XY1` OR Vx, Vy (R144): `VF` unchanged. -/
def execOrReg (x y : Reg) (s : State) : Result := .next (s.writeV x (s.readV x ||| s.readV y))

/-- `8XY2` AND Vx, Vy (R145): `VF` unchanged. -/
def execAndReg (x y : Reg) (s : State) : Result := .next (s.writeV x (s.readV x &&& s.readV y))

/-- `8XY3` XOR Vx, Vy (R146): `VF` unchanged. -/
def execXorReg (x y : Reg) (s : State) : Result := .next (s.writeV x (s.readV x ^^^ s.readV y))

/-- `8XY4` ADD Vx, Vy (R147): `VF` is the carry out, the old `VF` is not added in. -/
def execAddReg (x y : Reg) (s : State) : Result :=
  .next (s.writeWithFlag x (s.readV x + s.readV y) (carryOut (s.readV x) (s.readV y)))

/-- `8XY5` SUB Vx, Vy (R148): `VF` is not-borrow of `vx0 - vy0`. -/
def execSubReg (x y : Reg) (s : State) : Result :=
  .next (s.writeWithFlag x (s.readV x - s.readV y) (noBorrow (s.readV x) (s.readV y)))

/-- `8XY6` SHR Vx, Vy (R149). -/
def execShr (x y : Reg) (s : State) : Result :=
  .next (s.writeWithFlag x (s.shiftOperand x y >>> 1) (shiftedOutRight (s.shiftOperand x y)))

/-- `8XY7` SUBN Vx, Vy (R150): `VF` is not-borrow of `vy0 - vx0`. -/
def execSubn (x y : Reg) (s : State) : Result :=
  .next (s.writeWithFlag x (s.readV y - s.readV x) (noBorrow (s.readV y) (s.readV x)))

/-- `8XYE` SHL Vx, Vy (R151). -/
def execShl (x y : Reg) (s : State) : Result :=
  .next (s.writeWithFlag x (s.shiftOperand x y <<< 1) (shiftedOutLeft (s.shiftOperand x y)))

/-- `CXNN` RND Vx, nn (R152): `rnd & NN`, and the environment's count of draws advances (assumption 2). -/
def execRnd (x : Reg) (nn : Byte) (s : State) : Result :=
  .next ({ s with env := { s.env with draws := s.env.draws + 1 } }.writeV x (s.rndByte &&& nn))

end Sys2Proof.Machine
end

