-- ==== Sys2Proof/Machine/ControlFlow.lean ====
section
/-! DEFINITION. The control-flow instructions (40_control_flow.md). In every meaning `s.pc` is the advanced pc. -/

namespace Sys2Proof.Machine

/-- `00EE` RET (R120): pop a return address into `pc`; `StackUnderflow` on an empty stack. -/
def execRet (s : State) : Result :=
  if h : 0 < s.sp.val then
    .next { s with sp := ⟨s.sp.val - 1, by omega⟩, pc := s.stack[s.sp.val - 1]'(by omega) }
  else raise .stackUnderflow s.pc0.toNat s

/-- `1NNN` JP (R121). -/
def execJp (nnn : Addr12) (s : State) : Result := .next { s with pc := zextAddr nnn }

/-- `2NNN` CALL (R122): push the advanced pc; `StackOverflow` on a full stack. -/
def execCall (nnn : Addr12) (s : State) : Result :=
  if h : s.sp.val < 16 then
    .next { s with stack := s.stack.set s.sp.val s.pc h, sp := ⟨s.sp.val + 1, by omega⟩, pc := zextAddr nnn }
  else raise .stackOverflow s.pc0.toNat s

/-- `3XNN` SE Vx, nn (R123). -/
def execSeImm (x : Reg) (nn : Byte) (s : State) : Result := .next (s.skipIf (s.readV x == nn))

/-- `4XNN` SNE Vx, nn (R124). -/
def execSneImm (x : Reg) (nn : Byte) (s : State) : Result := .next (s.skipIf (s.readV x != nn))

/-- `5XY0` SE Vx, Vy (R125). -/
def execSeReg (x y : Reg) (s : State) : Result := .next (s.skipIf (s.readV x == s.readV y))

/-- `9XY0` SNE Vx, Vy (R126). -/
def execSneReg (x y : Reg) (s : State) : Result := .next (s.skipIf (s.readV x != s.readV y))

/-- `BNNN` JP V0, nnn (R128): no wrap and no mask, the sum is at most 0x10FE. -/
def execJpV0 (nnn : Addr12) (s : State) : Result :=
  .next { s with pc := zextAddr nnn + (s.jumpOffset nnn).setWidth 16 }

/-- An unrecognized word (R230): nothing happens, `pc` keeps the advanced value. -/
def execUnrecognized (s : State) : Result := .next s

end Sys2Proof.Machine
end

