-- ==== Sys2Proof/Machine/Display.lean ====
section
/-! DEFINITION. The display buffer and its two instructions (43_display.md, R34). -/

namespace Sys2Proof.Machine

/-- `DISP[row*8 + col]` (R190). Every caller keeps `row < 32` and `col < 8`. -/
def cellAt (d : Display) (row col : Nat) : Byte :=
  if h : row < 32 ∧ col < 8 then (d[row]'h.1)[col]'h.2 else 0

/-- `DISP[row*8 + col] <- b`. -/
def setCell (d : Display) (row col : Nat) (b : Byte) : Display :=
  if h : row < 32 ∧ col < 8 then d.set row ((d[row]'h.1).set col b h.2) h.1 else d

/-- Pixel (column `x`, row `y`): bit `7 - x mod 8` of cell `x div 8` (R34, R190). -/
def pixelAt (d : Display) (x y : Nat) : Bool := (cellAt d y (x / 8)).getLsbD (7 - x % 8)

/-- All pixels off. -/
def blankDisplay : Display := Vector.replicate 32 (Vector.replicate 8 0)

/-- XOR sprite bits into a cell, and note a hit if one of them was on before (R192). -/
def blitCell (row col : Nat) (bits : Byte) (p : Display × Bool) : Display × Bool :=
  (setCell p.1 row col (cellAt p.1 row col ^^^ bits), p.2 || (cellAt p.1 row col &&& bits) != 0)

/-- One sprite row at start column `px` (R192): the high bits into the left cell, the low bits into the right cell
where it lies in the same display row. -/
def blitRow (px row : Nat) (b : Byte) (p : Display × Bool) : Display × Bool :=
  let left := blitCell row (px / 8) (b >>> (px % 8)) p
  if px % 8 ≠ 0 ∧ px / 8 < 7 then blitCell row (px / 8 + 1) (b <<< (8 - px % 8)) left else left

/-- The first `rows` sprite rows, read from `i`, `i+1`, ..., drawn at `py`, `py+1`, ... (R192). -/
def blitRows (m : Memory) (i px py : Nat) : Nat → Display × Bool → Display × Bool
  | 0, p => p
  | r + 1, p => blitRow px (py + r) (m.read (i + r)) (blitRows m i px py r p)

/-- The start column `px = vx0 mod 64` (R192). -/
def State.startColumn (s : State) (x : Reg) : Nat := (s.readV x).toNat % 64

/-- The start row `py = vy0 mod 32` (R192). -/
def State.startRow (s : State) (y : Reg) : Nat := (s.readV y).toNat % 32

/-- How many rows are drawn: those below the bottom edge are not (R192). -/
def State.drawnRows (s : State) (y : Reg) (n : Nibble) : Nat := min n.toNat (32 - s.startRow y)

/-- The display and the collision after the draw (R192). -/
def State.drawn (s : State) (x y : Reg) (n : Nibble) : Display × Bool :=
  blitRows s.mem s.i.toNat (s.startColumn x) (s.startRow y) (s.drawnRows y n) (s.disp, false)

/-- `00E0` CLS (R191). -/
def execCls (s : State) : Result := .next { s with disp := blankDisplay }

/-- `DXYN` DRW Vx, Vy, n (R192): only the rows drawn are read and range-checked; `VF` is always written, last. -/
def execDrw (x y : Reg) (n : Nibble) (s : State) : Result :=
  if s.drawnRows y n = 0 then .next (s.writeV 15 0)
  else
    s.checked (s.drawnRows y n - 1)
      ({ s with disp := (s.drawn x y n).1 }.writeV 15 (flagByte (s.drawn x y n).2))

end Sys2Proof.Machine
end

