-- ==== Sys2Proof/Machine/IndexMemory.lean ====
section
/-! DEFINITION. Index register and memory transfer (42_index_memory.md). -/

namespace Sys2Proof.Machine

/-- `ANNN` LD I, nnn (R170). -/
def execLdI (nnn : Addr12) (s : State) : Result := .next { s with i := zextAddr nnn }

/-- `FX1E` ADD I, Vx (R171): modulo 65536, not reduced to 12 bits; `VF` from the untruncated sum, written last. -/
def execAddI (x : Reg) (s : State) : Result :=
  .next ({ s with i := s.i + (s.readV x).setWidth 16 }.writeV 15 (flagByte (indexOverflow s.i (s.readV x))))

/-- `FX29` LD F, Vx (R172). -/
def execLdF (x : Reg) (s : State) : Result := .next { s with i := s.glyphAddress (s.readV x) }

/-- `FX33` LD B, Vx (R173): three digits at `I`, `I+1`, `I+2`; `I` is unchanged. -/
def execLdB (x : Reg) (s : State) : Result :=
  s.checked 2 { s with mem := s.mem.writeBytes s.i.toNat (decimalDigits (s.readV x)) }

/-- `FX55` LD [I], Vx (R176): `V[0..X]` to `I..I+X`, then R175. -/
def execStoreRegs (x : Reg) (s : State) : Result :=
  s.checked x.toNat
    ({ s with mem := s.mem.writeBytes s.i.toNat (s.readBlock 0 (x.toNat + 1)) }.advanceIndex x)

/-- `FX65` LD Vx, [I] (R177): `V[0..X]` from `I..I+X`, then R175. -/
def execLoadRegs (x : Reg) (s : State) : Result :=
  s.checked x.toNat
    ((s.writeBlock 0 (s.mem.readBytes s.i.toNat (x.toNat + 1))).advanceIndex x)

end Sys2Proof.Machine
end

