-- ==== Sys2Proof/Machine/KeysTimers.lean ====
section
/-! DEFINITION. Key and timer instructions (44_keys_timers.md). -/

namespace Sys2Proof.Machine

/-- `EX9E` SKP Vx (R210). -/
def execSkp (x : Reg) (s : State) : Result := .next (s.skipIf (s.held (s.readV x)))

/-- `EXA1` SKNP Vx (R211). -/
def execSknp (x : Reg) (s : State) : Result := .next (s.skipIf (!s.held (s.readV x)))

/-- `FX07` LD Vx, DT (R212). -/
def execLdVxDT (x : Reg) (s : State) : Result := .next (s.writeV x s.dt)

/-- `FX15` LD DT, Vx (R214). -/
def execLdDT (x : Reg) (s : State) : Result := .next { s with dt := s.readV x }

/-- `FX18` LD ST, Vx (R215): no `BEEP` here. -/
def execLdST (x : Reg) (s : State) : Result := .next { s with st := s.readV x }

/-- Keys held at the previous `FX0A` sample and not held now (R213). -/
def State.released (s : State) : Word := s.kw &&& ~~~s.keys

/-- `FX0A` LD Vx, K (R213): the lowest released key completes the wait; otherwise the sample is kept and `pc` goes
back to this same word. -/
def execLdVxK (x : Reg) (s : State) : Result :=
  match lowestKey s.released with
  | some k => .next ({ s with kw := 0 }.writeV x (BitVec.ofNat 8 k))
  | none => .next { s with kw := s.keys, pc := s.pc - 2 }

end Sys2Proof.Machine
end

