-- ==== Sys2Proof/Machine/Cycle.lean ====
section
/-! DEFINITION. The environment's four operations on the state: Step (R6), Tick (R252), SetKeys (R8), Reset (R280), and
the placing of a word where the next Step fetches. -/

namespace Sys2Proof.Machine

/-- The word at `pc`, high byte at the lower address (R63). -/
def State.fetchWord (s : State) : Word := wordOfBytes (s.mem.read s.pc.toNat) (s.mem.read (s.pc.toNat + 1))

/-- Sample the port `rnd` for this Step (R6, R40). -/
def State.sampleRnd (s : State) (r : Option Byte) : State := { s with env := { s.env with rnd := r } }

/-- `execute(decode(w))` (R6): an unrecognized word is a no-op (R230). -/
def executeWord (w : Word) (s : State) : Result :=
  match decodeWord w with
  | some i => exec i s
  | none => execUnrecognized s

/-- `Step(rnd)` (R6): nothing in Faulted (R246); the fetch fault before anything is read (R64); else the instruction on
the state with the advanced pc. -/
def stepOp (r : Option Byte) (s : State) : Result :=
  match s.status with
  | .faulted _ _ => .next s
  | .running =>
    if s.fetchable then executeWord s.fetchWord (s.sampleRnd r).advance
    else .next (s.enterFault .fetchOutOfRange s.pc.toNat)

/-- Decrement by 1 if nonzero (R252). -/
def countDown (t : Byte) : Byte := if t = 0 then 0 else t - 1

/-- Does a Tick emit `BEEP` (R254)? Iff `ST` is nonzero when the Tick begins, in Running. -/
def State.beepsNow (s : State) : Bool := s.status == .running && s.st != 0

/-- `Tick()` (R252): nothing in Faulted (R246). -/
def tickOp (s : State) : State :=
  match s.status with
  | .faulted _ _ => s
  | .running =>
    { s with
      dt := countDown s.dt
      st := countDown s.st
      env := { s.env with beeps := if s.beepsNow then s.env.beeps + 1 else s.env.beeps } }

/-- `SetKeys(k)` (R8): `KEYS <- k` and nothing else, in Faulted too (R246). -/
def setKeysOp (k : Word) (s : State) : State := { s with keys := k }

/-- `MEM` after Reset (R70): the font image with the program written at 0x200. -/
def loadedMemory (f : Font) (program : List Byte) : Memory :=
  Memory.writeBytes { font := f, cells := [] } 0x200 program

/-- `Reset(program, quirks)` (R280 to R282): every piece of the core's state takes its reset value, the environment's
own fields and the font parameters stay; a program that does not fit is refused. -/
def resetOp (program : List Byte) (q : Quirks) (s : State) : Result :=
  if programFits program then
    .next { State.reset with mem := loadedMemory s.mem.font program, quirks := q, env := { s.env with rnd := none } }
  else .refused (.programTooLong program.length)

/-- One operation of the environment (R5, R9). -/
def perform (op : Op) (s : State) : Result :=
  match op with
  | .step r => stepOp r s
  | .tick => .next (tickOp s)
  | .setKeys k => .next (setKeysOp k s)
  | .reset program q => resetOp program q s

/-- The operation the environment invokes next (assumption 3). -/
def State.nextOp (s : State) : Op :=
  match s.env.ops, s.env.tail with
  | op :: _, _ => op
  | [], .steps => .step none
  | [], .free k => Config.freeOp k

/-- The environment's schedule after that operation. -/
def Environment.moved (e : Environment) : Environment :=
  match e.ops, e.tail with
  | _ :: rest, _ => { e with ops := rest }
  | [], .steps => e
  | [], .free k => { e with tail := .free (k + 1) }

/-- The environment's next move: its next operation on the core. -/
def nextMove (s : State) : Result := perform s.nextOp { s with env := s.env.moved }

/-- Store the two bytes of a word at `pc`, for a Running machine whose environment invokes a Step before all else. A `pc` that
cannot be fetched from is first put at 0x200. -/
def placeWord (s : State) (w : Word) : State :=
  let a : Word := if s.fetchable then s.pc else 0x200
  { s with
    pc := a
    status := .running
    mem := s.mem.writeBytes a.toNat (bytesOfWord w)
    env := { s.env with ops := .step none :: s.env.ops } }

end Sys2Proof.Machine
end

