-- ==== Sys2Proof/Machine/Step.lean ====
section
/-! DEFINITION. One step of the machine: one operation of the environment (R5, R9). -/

namespace Sys2Proof.Machine

/-- One step: the environment's next operation on the core. -/
def step (s : State) : Host.Outcome State Fault Refusal := nextMove s

/-- The state with the instruction word stored where the next step fetches it (assumption 6): the table's bit numbering
is the word's own (R91), bits above `nbits` are 0. -/
def State.withFetchWord (s : State) (nbits w : Nat) : State :=
  placeWord s (BitVec.ofNat 16 (w % 2 ^ nbits))

end Sys2Proof.Machine
end

