-- ==== Sys2Proof/Safety.lean ====
section
/-! DEFINITION. The vocabulary of the claims: runs and reachable states, the invariants the spec states of the whole
machine, and the sprite of a draw as pixels. -/

namespace Sys2Proof.Machine

/-! ## Runs (R9) -/

/-- The states a run can come to: it begins with a Reset, with any program, quirks and font and an environment that has
any schedule, and goes on by steps. -/
inductive Reachable : State → Prop where
  | reset (s t : State) (program : List Byte) (q : Quirks) : resetOp program q s = .next t → Reachable t
  | step (s t : State) : Reachable s → step s = .next t → Reachable t

/-- The `k`-th operation that an environment invokes from now on: its list, then its tail. -/
def Environment.scheduled (e : Environment) (k : Nat) : Op :=
  if h : k < e.ops.length then e.ops[k]
  else match e.tail with
    | .steps => .step none
    | .free j => Config.freeOp (j + (k - e.ops.length))

/-- `run` is the sequence of states that the infinite schedule `sched` takes the core through, from `run 0` on (R9). -/
def Execution (sched : Nat → Op) (run : Nat → State) : Prop := ∀ k, perform (sched k) (run k) = .next (run (k + 1))

/-- The state with another schedule of its environment. -/
def State.withSchedule (s : State) (ops : List Op) (tail : Tail) : State :=
  { s with env := { s.env with ops := ops, tail := tail } }

/-- `n` Ticks in a row (R253). -/
def ticks : Nat → State → State
  | 0, s => s
  | n + 1, s => ticks n (tickOp s)

/-- A run that goes well: `k` steps, all of them to a next state with `STATUS = Running` ("a faulted state is never a
successful end of a run", R246). -/
def RunsSafely : Nat → State → Prop
  | 0, s => s.status = .running
  | k + 1, s => s.status = .running ∧ ∃ t, step s = .next t ∧ RunsSafely k t

/-! ## Invariants -/

/-- R27, R120: `pc` is at most 0x10FE, and a return address that can still be popped is at most 4096. -/
def PcBounded (s : State) : Prop :=
  s.pc.toNat ≤ 0x10FE ∧ ∀ (k : Nat) (h : k < 16), k < s.sp.val → (s.stack[k]'h).toNat ≤ 4096

/-- R41: outside a key wait `KW` is 0; when it is not, the instruction at `pc` is the `FX0A` that waits. -/
def WaitLatched (s : State) : Prop :=
  s.kw ≠ 0 → s.fetchable = true ∧ ∃ x, decodeWord s.fetchWord = some (.ldVxK x)

/-- The memory is canonical, `pc` is bounded and the latch belongs to a wait. -/
structure State.Inv (s : State) : Prop where
  memory : s.mem.wf
  pc     : PcBounded s
  latch  : WaitLatched s

/-! ## The sprite of a draw, pixel by pixel (R192) -/

/-- Is column `x` lit by a sprite row `b` whose leftmost pixel is at column `px`? Bit 7 is the leftmost pixel. -/
def spriteRowPixel (px : Nat) (b : Byte) (x : Nat) : Bool :=
  decide (px ≤ x ∧ x < px + 8) && b.getLsbD (7 - (x - px))

/-- Is pixel (column `col`, row `row`) lit by the sprite that `DXYN` draws? On the screen's 64 columns and 32 rows this
is the clipped sprite: nothing of it wraps. -/
def State.spritePixel (s : State) (x y : Reg) (n : Nibble) (col row : Nat) : Bool :=
  decide ((s.readV y).toNat % 32 ≤ row ∧ row < (s.readV y).toNat % 32 + n.toNat) &&
    spriteRowPixel ((s.readV x).toNat % 64) (s.mem.read (s.i.toNat + (row - (s.readV y).toNat % 32))) col

/-! ## Which instruction writes what (table of 10_state.md section 1, R23) -/

/-- `SP`: `2NNN`, `00EE`. -/
def writesSP : Instr → Bool
  | .ret | .call _ => true
  | _ => false

/-- `STACK`: `2NNN`. -/
def writesStack : Instr → Bool
  | .call _ => true
  | _ => false

/-- `MEM`: `FX33`, `FX55`. -/
def writesMem : Instr → Bool
  | .ldB _ | .storeRegs _ => true
  | _ => false

/-- `DISP`: `00E0`, `DXYN`. -/
def writesDisp : Instr → Bool
  | .cls | .drw _ _ _ => true
  | _ => false

/-- `I`: `ANNN`, `FX1E`, `FX29`, and under the quirk `FX55`, `FX65`. -/
def writesI (i : Instr) (s : State) : Bool :=
  match i with
  | .ldI _ | .addI _ | .ldF _ => true
  | .storeRegs _ | .loadRegs _ => s.quirks.incrementIndex
  | _ => false

/-- Instructions that do more with `pc` than leave it advanced (R25). -/
def transfersControl : Instr → Bool
  | .ret | .jp _ | .call _ | .jpV0 _ | .seImm _ _ | .sneImm _ _ | .seReg _ _ | .sneReg _ _
  | .skp _ | .sknp _ | .ldVxK _ => true
  | _ => false

/-- Is `r` an ordinary destination register of the instruction (R21)? -/
def namesDest (i : Instr) (r : Reg) : Bool :=
  match i with
  | .ldImm x _ | .addImm x _ | .ldReg x _ | .orReg x _ | .andReg x _ | .xorReg x _ | .addReg x _ | .subReg x _
  | .shr x _ | .subn x _ | .shl x _ | .rnd x _ | .ldVxDT x | .ldVxK x => r == x
  | .loadRegs x => decide (r.toNat ≤ x.toNat)
  | _ => false

/-- The flag outcome of the seven instructions of R23, from the state they execute in; `none` for every other. -/
def flagOutcome (i : Instr) (s : State) : Option Bool :=
  match i with
  | .addReg x y => some (decide ((s.readV x).toNat + (s.readV y).toNat > 255))
  | .subReg x y => some (decide ((s.readV x).toNat ≥ (s.readV y).toNat))
  | .shr x y => some (decide ((if s.quirks.shiftUsesVY then s.readV y else s.readV x).toNat % 2 = 1))
  | .subn x y => some (decide ((s.readV y).toNat ≥ (s.readV x).toNat))
  | .shl x y => some (decide ((if s.quirks.shiftUsesVY then s.readV y else s.readV x).toNat ≥ 128))
  | .drw x y n => some (s.drawn x y n).2
  | .addI x => some (decide (s.i.toNat + (s.readV x).toNat > 0x0FFF))
  | _ => none

/-- The offset of the last byte an instruction accesses through `I`, `none` if it accesses none (table of R65). -/
def dataExtent (i : Instr) (s : State) : Option Nat :=
  match i with
  | .ldB _ => some 2
  | .storeRegs x | .loadRegs x => some x.toNat
  | .drw _ y n =>
    if min n.toNat (32 - (s.readV y).toNat % 32) = 0 then none
    else some (min n.toNat (32 - (s.readV y).toNat % 32) - 1)
  | _ => none

/-- `STATUS`: an instruction that can raise, `2NNN`, `00EE` and those with a data access (R240). -/
def mayRaise (i : Instr) (s : State) : Bool :=
  match i with
  | .ret | .call _ => true
  | _ => (dataExtent i s).isSome

end Sys2Proof.Machine
end

