-- ==== Sys2Proof/Certificates/Slice0/Obligations.lean ====
section
/-! DEFINITION. The statements about the CHIP-8 core, one definition each; OBLIGATIONS.json lists them.
`exec i s` runs an instruction on the state with the ADVANCED pc (R6), so `s.pc - 2` is the address of the instruction.
An equation `t = { s with f := t.f, ... }` is the frame: every field of the state but those named is unchanged, all of
memory among them where `mem` is not named. -/

open Sys2Proof Sys2Proof.Machine

/-! ## Encoding (30_encoding.md) -/

/-- Every instruction, every operand at every value: decoding its word gives it back, and decoding its bytes gives it
back and leaves the bytes after it. -/
def Obligations.DecodeInvertsEncode : Prop :=
  ∀ (i : Instr) (rest : List Byte),
    decodeWord (encode i) = some i ∧ decodeBytes (encodeBytes i ++ rest) = .ok (i, rest)

/-- The other direction: a word that decodes has one meaning, whose encoding it is. -/
def Obligations.EncodeInvertsDecode : Prop :=
  ∀ (w : Word) (i : Instr), decodeWord w = some i → encode i = w

/-- The decoder recognizes exactly the words that match a row of the opcode map, written as masks (R95, R96, R100). -/
def Obligations.DecoderAgreesWithOpcodeMap : Prop :=
  ∀ w : Word, (decodeWord w).isSome = true ↔ ∃ r ∈ opcodeRows, w &&& r.mask = r.value

/-- "The 34 rows are pairwise disjoint: no word matches two of them" (R95). -/
def Obligations.OpcodeRowsAreDisjoint : Prop :=
  opcodeRows.length = 34 ∧
    opcodeRows.Pairwise (fun p q => ∀ w : Word, ¬(w &&& p.mask = p.value ∧ w &&& q.mask = q.value))

/-- Words written out in the spec decode as it says: seven of 95_test_vectors.md section 2.7, `A20E` of its program P3, and
two unrecognized words of its section 2.6, of which `5121` is one by decision D11 (exact patterns). -/
def Obligations.DocumentedWordsDecode : Prop :=
  decodeWord 0xD4A7 = some (.drw 0x4 0xA 0x7) ∧ decodeWord 0x8AB4 = some (.addReg 0xA 0xB) ∧
    decodeWord 0xF933 = some (.ldB 0x9) ∧ decodeWord 0x00EE = some .ret ∧ decodeWord 0x00E0 = some .cls ∧
    decodeWord 0x3C42 = some (.seImm 0xC 0x42) ∧ decodeWord 0xEEA1 = some (.sknp 0xE) ∧
    decodeWord 0xA20E = some (.ldI 0x20E) ∧ decodeWord 0x5121 = none ∧ decodeWord 0x0000 = none

/-! ## Fetch and Step (00_scope.md R6, 20_memory.md R63, R64) -/

/-- R63: the instruction word is the byte at `pc` times 256 plus the byte at `pc + 1`. -/
def Obligations.FetchIsBigEndian : Prop :=
  ∀ s : State, s.fetchWord.toNat = (s.mem.read s.pc.toNat).toNat * 256 + (s.mem.read (s.pc.toNat + 1)).toNat

/-- A step whose word decodes runs that instruction on the state with the advanced pc, when the environment's next
operation is a Step, which also hands over its `rnd`. The environment's schedule is the model's choice: `nextOp` is the
head of its list, and with the list used up it is a Step with a free `rnd` (as at `State.reset`) or a free operation
(assumptions 2 and 3, DESIGN CHOICE). The second clause writes the first out for a list, the third for an empty list
before a tail of Steps. -/
def Obligations.StepRunsTheDecodedInstruction : Prop :=
  ∀ (s : State) (i : Instr), s.status = .running → s.pc.toNat + 2 ≤ 4096 →
    decodeWord (wordOfBytes (s.mem.read s.pc.toNat) (s.mem.read (s.pc.toNat + 1))) = some i →
    (∀ r, s.nextOp = .step r → step s = exec i { s with pc := s.pc + 2, env := { s.env.moved with rnd := r } }) ∧
    (∀ r rest, s.env.ops = .step r :: rest →
      step s = exec i { s with pc := s.pc + 2, env := { s.env with ops := rest, rnd := r } }) ∧
    (s.env.ops = [] → s.env.tail = .steps →
      step s = exec i { s with pc := s.pc + 2, env := { s.env with rnd := none } })

/-- R64: if `pc0 + 2 > 4096`, Step raises `FetchOutOfRange(pc0)` before reading and before advancing `pc`; otherwise,
`pc0 = 4094` included, the word at `pc0` is executed. -/
def Obligations.FetchFaultsBeyondMemory : Prop :=
  ∀ (r : Option Byte) (s : State), s.status = .running →
    stepOp r s =
      if s.pc.toNat + 2 > 4096 then .next { s with status := .faulted .fetchOutOfRange s.pc.toNat }
      else executeWord (wordOfBytes (s.mem.read s.pc.toNat) (s.mem.read (s.pc.toNat + 1)))
        { s with pc := s.pc + 2, env := { s.env with rnd := r } }

/-- R230: a word that matches no row is a no-op: the Step completes, `pc` has advanced by 2 and no other state of the
core has changed. The port `rnd` of the environment (assumption 3) shows the byte given to this Step. -/
def Obligations.UnrecognizedWordsAreNoOps : Prop :=
  ∀ (r : Option Byte) (s : State), s.status = .running → s.pc.toNat + 2 ≤ 4096 →
    (∀ row ∈ opcodeRows, s.fetchWord &&& row.mask ≠ row.value) →
    stepOp r s = .next { s with pc := s.pc + 2, env := { s.env with rnd := r } }

/-- R77: a store into code is seen by the very next fetch. `FX55` with `I` at the next instruction plants `V[0]`, `V[1]`
there, and the next word fetched is theirs. -/
def Obligations.StoredCodeIsFetchedNext : Prop :=
  ∀ (x : Reg) (s : State), s.mem.wf → s.i = s.pc → 1 ≤ x.toNat → s.i.toNat + x.toNat ≤ 4095 →
    ∃ t, exec (.storeRegs x) s = .next t ∧ t.pc = s.pc ∧
      t.fetchWord.toNat = (s.readV 0).toNat * 256 + (s.readV 1).toNat

/-! ## Faults (60_exceptions.md) -/

/-- R240: which instruction meets which fault, and the info it reports; nothing else faults. Read from left to right it
says that nothing else faults, from right to left that each of these does. The conditions on the data accesses are
decision D6, those on the stack D7. -/
def Obligations.FaultConditions : Prop :=
  ∀ (i : Instr) (s t : State) (c : Cause) (n : Nat), s.status = .running → exec i s = .next t →
    (t.status = .faulted c n ↔
      (c = .stackOverflow ∧ n = (s.pc - 2).toNat ∧ s.sp.val = 16 ∧ ∃ nnn, i = .call nnn) ∨
      (c = .stackUnderflow ∧ n = (s.pc - 2).toNat ∧ s.sp.val = 0 ∧ i = .ret) ∨
      (c = .dataAddressOutOfRange ∧ n = max s.i.toNat 4096 ∧
        ∃ last, dataExtent i s = some last ∧ s.i.toNat + last > 4095))

/-- R244 (decision D4): faults are precise. Whatever fault a step from Running ends in, all of the core's state but
`STATUS` is what it was before the step, `pc` included. Only the environment's own fields may differ. -/
def Obligations.FaultsArePrecise : Prop :=
  ∀ (s t : State) (c : Cause) (n : Nat), s.status = .running → step s = .next t → t.status = .faulted c n →
    t = { s with status := .faulted c n, env := t.env } ∧ t.env.beeps = s.env.beeps ∧ t.env.draws = s.env.draws

/-- R246 (decision D4): in Faulted, Step and Tick change nothing, SetKeys still sets `KEYS`, and the only step that
leaves Faulted is a Reset. -/
def Obligations.FaultedStopsForGood : Prop :=
  ∀ (s : State) (c : Cause) (n : Nat), s.status = .faulted c n →
    (∀ r, stepOp r s = .next s) ∧ tickOp s = s ∧ (∀ k, setKeysOp k s = { s with keys := k }) ∧
    ∀ t, step s = .next t →
      t.status = .faulted c n ∨
        (t.status = .running ∧ ∃ program q, s.nextOp = .reset program q)

/-- "Every Step is enabled" (93_implementation_defined.md, end of part 1): every instruction, in every state, with every
operand, answers a next state. -/
def Obligations.EveryInstructionCompletes : Prop :=
  ∀ (i : Instr) (s : State), ∃ t, exec i s = .next t ∧ t.quirks = s.quirks ∧ t.keys = s.keys

/-- The machine never stops: a step answers a next state, but for a Reset with a program longer than 3584 bytes, which
is refused (R282, decision D22). -/
def Obligations.OnlyAnOversizedResetIsRefused : Prop :=
  ∀ s : State, (∃ t, step s = .next t) ∨
    ∃ program q, s.nextOp = .reset program q ∧ 3584 < program.length ∧
      step s = .refused (.programTooLong program.length)

/-! ## The environment's operations (00_scope.md R7, R8; 60_exceptions.md R252 to R254; 70_reset_and_hazards.md) -/

/-- R8: `SetKeys(k)` sets `KEYS <- k` and changes nothing else, in every status. It runs when it is the environment's
next operation, and the schedule moves on. -/
def Obligations.SetKeysWritesKeysOnly : Prop :=
  ∀ (s : State) (k : Word), s.nextOp = .setKeys k → step s = .next { s with keys := k, env := s.env.moved }

/-- R252, R254: a Tick takes 1 from each nonzero timer in Running, emits `BEEP` iff `ST` was nonzero when it began
(decision D13), touches nothing else, and does nothing in Faulted (decision D4). -/
def Obligations.TickCountsDown : Prop :=
  ∀ s : State, s.nextOp = .tick →
    ∃ t, step s = .next t ∧ t = { s with dt := t.dt, st := t.st, env := t.env } ∧
      t.env = { s.env.moved with beeps := t.env.beeps } ∧
      if s.status = .running then
        t.dt.toNat = s.dt.toNat - 1 ∧ t.st.toNat = s.st.toNat - 1 ∧
          t.env.beeps = s.env.beeps + (if s.st.toNat = 0 then 0 else 1)
      else t.dt = s.dt ∧ t.st = s.st ∧ t.env.beeps = s.env.beeps

/-- R253, R254: after `n` Ticks a timer that held `d` holds `d - n`, 0 at least, and `ST = m` has emitted `min n m`
beeps (decision D13); nothing else has changed. -/
def Obligations.TimersCountTicks : Prop :=
  ∀ (n : Nat) (s : State), s.status = .running →
    (ticks n s).dt.toNat = s.dt.toNat - n ∧ (ticks n s).st.toNat = s.st.toNat - n ∧
      ticks n s = { s with
        dt := (ticks n s).dt, st := (ticks n s).st,
        env := { s.env with beeps := s.env.beeps + min n s.st.toNat } }

/-- R280 to R282, R70: a program that fits gives the state of R281 with the font at `FONT_BASE`, the program at 0x200 and
0 elsewhere; one that does not is refused. The zero values are decision D3, the refusal D22. That the memory is in its
canonical form is the model's own choice (assumption 8, DESIGN CHOICE), and so is that a Reset keeps the font of the state
it resets (assumption 1, PRESUMED). -/
def Obligations.ResetEstablishesTheResetState : Prop :=
  ∀ (program : List Byte) (q : Quirks) (s : State),
    if program.length ≤ 3584 then
      ∃ t, resetOp program q s = .next t ∧
        (∀ r, t.readV r = 0) ∧ t.i = 0 ∧ t.pc = 0x200 ∧ t.sp = 0 ∧ (∀ (k : Nat) (h : k < 16), t.stack[k]'h = 0) ∧
        t.dt = 0 ∧ t.st = 0 ∧ (∀ row col, cellAt t.disp row col = 0) ∧ t.quirks = q ∧ t.keys = 0 ∧ t.kw = 0 ∧
        t.status = .running ∧ t.mem.wf ∧ t.mem.font = s.mem.font ∧
        ∀ a, t.mem.read a =
          if h : s.mem.font.base.val ≤ a ∧ a < s.mem.font.base.val + 80 then
            s.mem.font.data[a - s.mem.font.base.val]'(by omega)
          else if h : 0x200 ≤ a ∧ a < 0x200 + program.length then program[a - 0x200]'(by omega)
          else 0
    else resetOp program q s = .refused (.programTooLong program.length)

/-- R284 (decision D3): the first Step after Reset fetches the first two bytes of the program. -/
def Obligations.FirstFetchIsTheProgramsFirstWord : Prop :=
  ∀ (hi lo : Byte) (rest : List Byte) (q : Quirks) (s : State), rest.length ≤ 3582 →
    ∃ t, resetOp (hi :: lo :: rest) q s = .next t ∧ t.status = .running ∧ t.fetchable = true ∧
      t.fetchWord = wordOfBytes hi lo

/-- `State.reset` is the state of R281 for the empty program and the default quirks (decision D3; the font is the spec's
default, assumption 1), and it is what Reset gives there. That its memory lists no cell is how the model holds memory
(assumption 8, DESIGN CHOICE). -/
def Obligations.ResetStateIsTheEmptyReset : Prop :=
  resetOp [] {} State.reset = .next State.reset ∧ State.reset.pc = 0x200 ∧ State.reset.status = .running ∧
    State.reset.quirks = ⟨false, false, false⟩ ∧ State.reset.mem.cells = [] ∧
    ∀ a, 0x200 ≤ a → State.reset.mem.read a = 0

/-! ## Control flow (40_control_flow.md) -/

/-- R121: `1NNN` replaces `pc` by `NNN`. -/
def Obligations.JumpReplacesPc : Prop :=
  ∀ (nnn : Addr12) (s : State), ∃ t, exec (.jp nnn) s = .next t ∧
    t = { s with pc := t.pc } ∧ t.pc.toNat = nnn.toNat

/-- R122 (decision D7 for the full stack): `2NNN` pushes the advanced pc and jumps; at `SP = 16` it raises
`StackOverflow(pc0)` and changes nothing else. -/
def Obligations.CallPushesTheAdvancedPc : Prop :=
  ∀ (nnn : Addr12) (s : State), ∃ t, exec (.call nnn) s = .next t ∧
    if s.sp.val = 16 then t = { s with pc := s.pc - 2, status := .faulted .stackOverflow (s.pc - 2).toNat }
    else t = { s with pc := t.pc, sp := t.sp, stack := t.stack } ∧ t.pc.toNat = nnn.toNat ∧
      t.sp.val = s.sp.val + 1 ∧
      ∀ (k : Nat) (h : k < 16), t.stack[k]'h = if k = s.sp.val then s.pc else s.stack[k]'h

/-- R120 (decision D7 for the empty stack): `00EE` pops `pc`; at `SP = 0` it raises `StackUnderflow(pc0)` and changes
nothing else. -/
def Obligations.ReturnPopsPc : Prop :=
  ∀ s : State, ∃ t, exec .ret s = .next t ∧
    if s.sp.val = 0 then t = { s with pc := s.pc - 2, status := .faulted .stackUnderflow (s.pc - 2).toNat }
    else t = { s with pc := t.pc, sp := t.sp } ∧ t.sp.val = s.sp.val - 1 ∧
      t.pc = s.stack[s.sp.val - 1]'(by have := s.sp.isLt; omega)

/-- R120, R122: a `RET` after a `CALL` resumes at the instruction after the `CALL`, with the stack pointer of before,
whatever the pc and registers were in between. -/
def Obligations.ReturnResumesAfterTheCall : Prop :=
  ∀ (nnn : Addr12) (s : State), s.sp.val < 16 → ∃ t, exec (.call nnn) s = .next t ∧
    ∀ (p : Word) (v : Vector Byte 16),
      exec .ret { t with pc := p, v := v } = .next { t with pc := s.pc, sp := s.sp, v := v }

/-- R123: `3XNN` skips iff `V[X] = NN`. -/
def Obligations.SkipIfEqualImmediate : Prop :=
  ∀ (x : Reg) (nn : Byte) (s : State),
    exec (.seImm x nn) s = .next { s with pc := if (s.readV x).toNat = nn.toNat then s.pc + 2 else s.pc }

/-- R124: `4XNN` skips iff `V[X] != NN`. -/
def Obligations.SkipIfNotEqualImmediate : Prop :=
  ∀ (x : Reg) (nn : Byte) (s : State),
    exec (.sneImm x nn) s = .next { s with pc := if (s.readV x).toNat = nn.toNat then s.pc else s.pc + 2 }

/-- R125, R126: `5XY0` skips iff `V[X] = V[Y]`, `9XY0` iff not. -/
def Obligations.SkipOnRegisters : Prop :=
  ∀ (x y : Reg) (s : State),
    exec (.seReg x y) s = .next { s with pc := if (s.readV x).toNat = (s.readV y).toNat then s.pc + 2 else s.pc } ∧
    exec (.sneReg x y) s = .next { s with pc := if (s.readV x).toNat = (s.readV y).toNat then s.pc else s.pc + 2 }

/-- R128 (decision D14 for `Q_BXNN`): `BNNN` jumps to `NNN + V[0]`, under the quirk to `NNN + V[X]` with `X` the upper
nibble of `NNN`; the sum is exact. -/
def Obligations.OffsetJumpIsExact : Prop :=
  ∀ (nnn : Addr12) (s : State), ∃ t, exec (.jpV0 nnn) s = .next t ∧ t = { s with pc := t.pc } ∧
    t.pc.toNat = nnn.toNat +
      (if s.quirks.bxnn = true then s.readV (BitVec.ofNat 4 (nnn.toNat / 256)) else s.readV 0).toNat

/-! ## Registers (41_alu.md) -/

/-- R141, R142: `6XNN` writes `NN`; `7XNN` adds modulo 256; no flag. -/
def Obligations.ImmediateLoadAndAdd : Prop :=
  ∀ (x : Reg) (nn : Byte) (s : State),
    (∃ t, exec (.ldImm x nn) s = .next t ∧ t = { s with v := t.v } ∧
      ∀ r, t.readV r = if r = x then nn else s.readV r) ∧
    ∃ t, exec (.addImm x nn) s = .next t ∧ t = { s with v := t.v } ∧
      ∀ r, (t.readV r).toNat = if r = x then ((s.readV x).toNat + nn.toNat) % 256 else (s.readV r).toNat

/-- R143 to R146: `8XY0` moves, `8XY1`, `8XY2`, `8XY3` are the bitwise or, and, exclusive or; no flag, so `VF` is
unchanged unless it is `V[X]`. -/
def Obligations.MoveAndLogic : Prop :=
  ∀ (x y : Reg) (s : State),
    (∃ t, exec (.ldReg x y) s = .next t ∧ t = { s with v := t.v } ∧
      ∀ r, t.readV r = if r = x then s.readV y else s.readV r) ∧
    (∃ t, exec (.orReg x y) s = .next t ∧ t = { s with v := t.v } ∧
      ∀ r k, (t.readV r).getLsbD k =
        if r = x then (s.readV x).getLsbD k || (s.readV y).getLsbD k else (s.readV r).getLsbD k) ∧
    (∃ t, exec (.andReg x y) s = .next t ∧ t = { s with v := t.v } ∧
      ∀ r k, (t.readV r).getLsbD k =
        if r = x then (s.readV x).getLsbD k && (s.readV y).getLsbD k else (s.readV r).getLsbD k) ∧
    ∃ t, exec (.xorReg x y) s = .next t ∧ t = { s with v := t.v } ∧
      ∀ r k, (t.readV r).getLsbD k =
        if r = x then (s.readV x).getLsbD k ^^ (s.readV y).getLsbD k else (s.readV r).getLsbD k

/-- R147: `8XY4` leaves the sum modulo 256 in `V[X]` and the carry in `VF`. With `X = 15` the flag is what remains
(R140, decision D8). -/
def Obligations.AddSetsCarry : Prop :=
  ∀ (x y : Reg) (s : State), ∃ t, exec (.addReg x y) s = .next t ∧ t = { s with v := t.v } ∧
    ∀ r, (t.readV r).toNat =
      if r = 15 then (if (s.readV x).toNat + (s.readV y).toNat > 255 then 1 else 0)
      else if r = x then ((s.readV x).toNat + (s.readV y).toNat) % 256
      else (s.readV r).toNat

/-- R148, R150: `8XY5` leaves `V[X] - V[Y]`, `8XY7` leaves `V[Y] - V[X]`, modulo 256, and not-borrow in `VF`. With
`X = 15` the flag is what remains (R140, decision D8). -/
def Obligations.SubtractSetsNotBorrow : Prop :=
  ∀ (x y : Reg) (s : State),
    (∃ t, exec (.subReg x y) s = .next t ∧ t = { s with v := t.v } ∧
      ∀ r, (t.readV r).toNat =
        if r = 15 then (if (s.readV x).toNat ≥ (s.readV y).toNat then 1 else 0)
        else if r = x then ((s.readV x).toNat + 256 - (s.readV y).toNat) % 256
        else (s.readV r).toNat) ∧
    ∃ t, exec (.subn x y) s = .next t ∧ t = { s with v := t.v } ∧
      ∀ r, (t.readV r).toNat =
        if r = 15 then (if (s.readV y).toNat ≥ (s.readV x).toNat then 1 else 0)
        else if r = x then ((s.readV y).toNat + 256 - (s.readV x).toNat) % 256
        else (s.readV r).toNat

/-- R149, R151: the operand of a shift is `V[Y]` under `Q_SHIFT_USES_VY`, else `V[X]`; `8XY6` halves it and `8XYE`
doubles it modulo 256, and `VF` is the bit shifted out. With `X = 15` the flag is what remains (R140, decision D8). -/
def Obligations.ShiftsSetTheBitShiftedOut : Prop :=
  ∀ (x y : Reg) (s : State) (a : Nat),
    a = (if s.quirks.shiftUsesVY = true then (s.readV y).toNat else (s.readV x).toNat) →
    (∃ t, exec (.shr x y) s = .next t ∧ t = { s with v := t.v } ∧
      ∀ r, (t.readV r).toNat = if r = 15 then a % 2 else if r = x then a / 2 else (s.readV r).toNat) ∧
    ∃ t, exec (.shl x y) s = .next t ∧ t = { s with v := t.v } ∧
      ∀ r, (t.readV r).toNat = if r = 15 then a / 128 else if r = x then 2 * a % 256 else (s.readV r).toNat

/-- R152 (decision D15): `CXNN` leaves `rnd & NN` in `V[X]`, for the byte the environment gave this Step, and where it
gave none for the next free value, whatever it is. The count of draws is the model's own (assumption 2). -/
def Obligations.RandomByteIsMasked : Prop :=
  ∀ (x : Reg) (nn : Byte) (s : State) (b : Byte),
    s.env.rnd = some b ∨ (s.env.rnd = none ∧ b = Config.freeRnd s.env.draws) →
    ∃ t, exec (.rnd x nn) s = .next t ∧ t = { s with v := t.v, env := { s.env with draws := s.env.draws + 1 } } ∧
      ∀ r k, (t.readV r).getLsbD k = if r = x then b.getLsbD k && nn.getLsbD k else (s.readV r).getLsbD k

/-! ## Index register and memory (42_index_memory.md) -/

/-- R170: `ANNN` sets `I = NNN`. -/
def Obligations.LoadIndex : Prop :=
  ∀ (nnn : Addr12) (s : State), ∃ t, exec (.ldI nnn) s = .next t ∧ t = { s with i := t.i } ∧
    t.i.toNat = nnn.toNat

/-- R171 (decision D12 for the threshold): `FX1E` adds to the 16-bit `I` and sets `VF` iff the untruncated sum exceeds
0x0FFF. -/
def Obligations.AddToIndexFlagsOverflow : Prop :=
  ∀ (x : Reg) (s : State), ∃ t, exec (.addI x) s = .next t ∧ t = { s with v := t.v, i := t.i } ∧
    t.i.toNat = (s.i.toNat + (s.readV x).toNat) % 65536 ∧
    ∀ r, (t.readV r).toNat =
      if r = 15 then (if s.i.toNat + (s.readV x).toNat > 0x0FFF then 1 else 0) else (s.readV r).toNat

/-- R172: `FX29` points `I` at the glyph of the low nibble of `V[X]`, for every `FONT_BASE`; the result lies in the first
`FONT_BASE .. FONT_BASE + 75`. -/
def Obligations.FontAddressOfLowNibble : Prop :=
  ∀ (x : Reg) (s : State), ∃ t, exec (.ldF x) s = .next t ∧ t = { s with i := t.i } ∧
    t.i.toNat = s.mem.font.base.val + 5 * ((s.readV x).toNat % 16) ∧
    s.mem.font.base.val ≤ t.i.toNat ∧ t.i.toNat ≤ s.mem.font.base.val + 75

/-- R173, R174 (decision D6 for the fault): `FX33` stores the three decimal digits at `I`, `I+1`, `I+2` and nothing
elsewhere, or faults and stores nothing. -/
def Obligations.DecimalDigitsAreStored : Prop :=
  ∀ (x : Reg) (s : State), s.mem.wf → ∃ t, exec (.ldB x) s = .next t ∧
    if s.i.toNat + 2 > 4095 then
      t = { s with pc := s.pc - 2, status := .faulted .dataAddressOutOfRange (max s.i.toNat 4096) }
    else t = { s with mem := t.mem } ∧
      (t.mem.read s.i.toNat).toNat = (s.readV x).toNat / 100 ∧
      (t.mem.read (s.i.toNat + 1)).toNat = (s.readV x).toNat / 10 % 10 ∧
      (t.mem.read (s.i.toNat + 2)).toNat = (s.readV x).toNat % 10 ∧
      ∀ a, (a < s.i.toNat ∨ s.i.toNat + 2 < a) → t.mem.read a = s.mem.read a

/-- R174 to R176 (decision D6 for the fault): `FX55` stores `V[0..X]` at `I..I+X` and nothing elsewhere, and advances `I`
by `X + 1` under `Q_INCREMENT_INDEX` only; or it faults and stores nothing. -/
def Obligations.BlockStore : Prop :=
  ∀ (x : Reg) (s : State), s.mem.wf → ∃ t, exec (.storeRegs x) s = .next t ∧
    if s.i.toNat + x.toNat > 4095 then
      t = { s with pc := s.pc - 2, status := .faulted .dataAddressOutOfRange (max s.i.toNat 4096) }
    else t = { s with mem := t.mem, i := t.i } ∧
      t.i.toNat = (if s.quirks.incrementIndex = true then s.i.toNat + x.toNat + 1 else s.i.toNat) ∧
      (∀ r : Reg, r.toNat ≤ x.toNat → t.mem.read (s.i.toNat + r.toNat) = s.readV r) ∧
      ∀ a, (a < s.i.toNat ∨ s.i.toNat + x.toNat < a) → t.mem.read a = s.mem.read a

/-- R174, R175, R177 (decision D6 for the fault): `FX65` loads `V[0..X]` from `I..I+X` and no other register, and advances
`I` by `X + 1` under `Q_INCREMENT_INDEX` only; or it faults and loads nothing. -/
def Obligations.BlockLoad : Prop :=
  ∀ (x : Reg) (s : State), ∃ t, exec (.loadRegs x) s = .next t ∧
    if s.i.toNat + x.toNat > 4095 then
      t = { s with pc := s.pc - 2, status := .faulted .dataAddressOutOfRange (max s.i.toNat 4096) }
    else t = { s with v := t.v, i := t.i } ∧
      t.i.toNat = (if s.quirks.incrementIndex = true then s.i.toNat + x.toNat + 1 else s.i.toNat) ∧
      ∀ r : Reg, t.readV r = if r.toNat ≤ x.toNat then s.mem.read (s.i.toNat + r.toNat) else s.readV r

/-- R175 to R177: what `FX55` stored, `FX65` loads back, whatever the registers held in between (quirk off, so `I` still
points at the block). -/
def Obligations.BlockLoadInvertsBlockStore : Prop :=
  ∀ (x : Reg) (s : State), s.mem.wf → s.quirks.incrementIndex = false → s.i.toNat + x.toNat ≤ 4095 →
    ∃ t, exec (.storeRegs x) s = .next t ∧
      ∀ v : Vector Byte 16, ∃ u, exec (.loadRegs x) { t with v := v } = .next u ∧ u = { t with v := u.v } ∧
        ∀ r : Reg, r.toNat ≤ x.toNat → u.readV r = s.readV r

/-- Equal memories are equal data: two canonical memories over one font that read alike everywhere are the same. -/
def Obligations.CanonicalMemoriesThatReadAlikeAreEqual : Prop :=
  ∀ m k : Memory, m.wf → k.wf → m.font = k.font → (∀ a, m.read a = k.read a) → m = k

/-! ## Display (43_display.md) -/

/-- R191: `00E0` sets every cell to 0 and changes nothing else, `VF` included. -/
def Obligations.ClearBlanksTheDisplay : Prop :=
  ∀ s : State, ∃ t, exec .cls s = .next t ∧ t = { s with disp := t.disp } ∧
    ∀ row col, cellAt t.disp row col = 0

/-- R192, pixel by pixel (decision D6 for the fault, D8 for `X = 15` or `Y = 15`, D18 for the rows read, D25 for the
orientation): a draw toggles exactly the lit pixels of the
sprite on the screen, nothing wraps, and `VF` is 1 iff one of them was on; or it faults and draws nothing. -/
def Obligations.DrawTogglesTheSpritesPixels : Prop :=
  ∀ (x y : Reg) (n : Nibble) (s : State) (rows : Nat), rows = min n.toNat (32 - (s.readV y).toNat % 32) →
    ∃ t, exec (.drw x y n) s = .next t ∧
      if rows ≠ 0 ∧ s.i.toNat + rows - 1 > 4095 then
        t = { s with pc := s.pc - 2, status := .faulted .dataAddressOutOfRange (max s.i.toNat 4096) }
      else t = { s with v := t.v, disp := t.disp } ∧
        (∀ col row, col < 64 → row < 32 →
          pixelAt t.disp col row = (pixelAt s.disp col row ^^ s.spritePixel x y n col row)) ∧
        (∀ r, r ≠ 15 → t.readV r = s.readV r) ∧
        ((∃ col row, col < 64 ∧ row < 32 ∧ pixelAt s.disp col row = true ∧ s.spritePixel x y n col row = true) →
          t.readV 15 = 1) ∧
        ((∀ col row, col < 64 → row < 32 → pixelAt s.disp col row = true → s.spritePixel x y n col row = false) →
          t.readV 15 = 0)

/-- R192, corner cases: drawing the same sprite twice at the same place restores the display, and the second draw sets
`VF` iff a lit pixel of the sprite on the screen was off before the first. `X` and `Y` are not 15, where the first draw's
`VF` would move the second (`DrawTogglesTheSpritesPixels` covers those forms). -/
def Obligations.DrawingTwiceRestoresTheDisplay : Prop :=
  ∀ (x y : Reg) (n : Nibble) (s : State), x ≠ 15 → y ≠ 15 →
    (n = 0 ∨ s.i.toNat + min n.toNat (32 - (s.readV y).toNat % 32) ≤ 4096) →
    ∃ t u, exec (.drw x y n) s = .next t ∧ exec (.drw x y n) t = .next u ∧ u.disp = s.disp ∧
      (u.readV 15 = 1 ↔
        ∃ col row, col < 64 ∧ row < 32 ∧ s.spritePixel x y n col row = true ∧ pixelAt s.disp col row = false)

/-! ## Keys and timers (44_keys_timers.md) -/

/-- R210, R211, R216 (decision D9 for key numbers above 15, D28 for the bit of a key): `EX9E` skips iff key `V[X]` is
held, `EXA1` iff it is not; a key number of 16 or more is never held. -/
def Obligations.KeySkips : Prop :=
  ∀ (x : Reg) (s : State),
    exec (.skp x) s = .next { s with
      pc := if (s.readV x).toNat < 16 ∧ s.keys.toNat / 2 ^ (s.readV x).toNat % 2 = 1 then s.pc + 2 else s.pc } ∧
    exec (.sknp x) s = .next { s with
      pc := if (s.readV x).toNat < 16 ∧ s.keys.toNat / 2 ^ (s.readV x).toNat % 2 = 1 then s.pc else s.pc + 2 }

/-- R212, R214, R215: `FX07` copies `DT` into `V[X]`; `FX15`, `FX18` copy `V[X]` into `DT`, `ST`. No flag, no `BEEP`. -/
def Obligations.TimerAccess : Prop :=
  ∀ (x : Reg) (s : State),
    (∃ t, exec (.ldVxDT x) s = .next t ∧ t = { s with v := t.v } ∧
      ∀ r, t.readV r = if r = x then s.dt else s.readV r) ∧
    exec (.ldDT x) s = .next { s with dt := s.readV x } ∧
    exec (.ldST x) s = .next { s with st := s.readV x }

/-- R213 (decision D10): `FX0A` completes iff some key held at the previous sample is not held now; the lowest such key
goes to `V[X]` and `KW` is cleared. Otherwise `KW` samples `KEYS` and `pc` goes back to the instruction. -/
def Obligations.KeyWaitEndsOnARelease : Prop :=
  ∀ (x : Reg) (s : State), ∃ t, exec (.ldVxK x) s = .next t ∧
    ((∀ k, k < 16 → s.kw.getLsbD k = true → s.keys.getLsbD k = true) →
      t = { s with kw := s.keys, pc := s.pc - 2 }) ∧
    ∀ k, k < 16 → s.kw.getLsbD k = true → s.keys.getLsbD k = false →
      (∀ j, j < k → s.kw.getLsbD j = true → s.keys.getLsbD j = true) →
      t = { s with kw := 0, v := t.v } ∧ ∀ r, t.readV r = if r = x then BitVec.ofNat 8 k else s.readV r

/-- R213 (decision D10): the wait is a spin that never times out. With `KEYS` constant, a wait that has begun (`KW = 0`,
or `KW` the sample of these same keys) is still at the same instruction after any number of Steps and Ticks in any order,
and nothing but the Ticks' own effects has changed. That the operations to come are a list in the state is the model's
choice (assumption 3, DESIGN CHOICE). -/
def Obligations.KeyWaitSpinsWhileKeysAreConstant : Prop :=
  ∀ (ops rest : List Op) (x : Reg) (s : State), (∀ op ∈ ops, op = .tick ∨ ∃ r, op = .step r) →
    s.env.ops = ops ++ rest → s.status = .running → s.pc.toNat + 2 ≤ 4096 →
    decodeWord s.fetchWord = some (.ldVxK x) → (s.kw = 0 ∨ s.kw = s.keys) →
    ∃ t, Sys2Proof.core.run ops.length s = .next t ∧
      t = { s with kw := t.kw, dt := t.dt, st := t.st, env := t.env } ∧
      t.env.ops = rest ∧ t.env.tail = s.env.tail ∧ t.env.draws = s.env.draws ∧
      (t.kw = s.kw ∨ t.kw = s.keys) ∧ ((∃ r, Op.step r ∈ ops) → t.kw = s.keys) ∧
      t.dt.toNat = s.dt.toNat - ops.count .tick ∧ t.st.toNat = s.st.toNat - ops.count .tick

/-! ## Whole-machine rules -/

/-- R23: the value of `VF` after the seven instructions that define a flag outcome, from the state they execute in, when
they do not fault. That the flag wins when `V[15]` is also the result register is decision D8. -/
def Obligations.FlagOutcomes : Prop :=
  ∀ (i : Instr) (s t : State) (f : Bool), s.status = .running → exec i s = .next t → t.status = .running →
    flagOutcome i s = some f → t.readV 15 = if f = true then 1 else 0

/-- R21, R23: no instruction writes a register it does not name as its destination, but for the flag outcomes in `VF`; in
particular no instruction outside the seven of R23 writes `VF` as a side effect. -/
def Obligations.RegistersChangeOnlyAsNamed : Prop :=
  ∀ (i : Instr) (s t : State) (r : Reg), exec i s = .next t → namesDest i r = false →
    (r ≠ 15 ∨ flagOutcome i s = none) → t.readV r = s.readV r

/-- Table of 10_state.md section 1, R25, R29, R39, R250: every other piece of state is written by the instructions listed
for it and by no other, `I` by `FX55` and `FX65` under the quirk only, `STATUS` by those that can raise; `QUIRKS`,
`KEYS`, the font parameters and the environment's ports by none. That `00EE` leaves the popped entry in `STACK` is the
model's choice (assumption 13, R31). -/
def Obligations.StateIsWrittenOnlyByItsWriters : Prop :=
  ∀ (i : Instr) (s t : State), exec i s = .next t →
    (writesSP i = false → t.sp = s.sp) ∧
    (writesStack i = false → t.stack = s.stack) ∧
    (writesMem i = false → t.mem = s.mem) ∧
    (writesDisp i = false → t.disp = s.disp) ∧
    (writesI i s = false → t.i = s.i) ∧
    ((∀ x, i ≠ .ldDT x) → t.dt = s.dt) ∧
    ((∀ x, i ≠ .ldST x) → t.st = s.st) ∧
    ((∀ x, i ≠ .ldVxK x) → t.kw = s.kw) ∧
    (mayRaise i s = false → t.status = s.status) ∧
    (transfersControl i = false → s.status = .running → t.status = .running → t.pc = s.pc) ∧
    t.quirks = s.quirks ∧ t.keys = s.keys ∧ t.mem.font = s.mem.font ∧
    t.env = { s.env with draws := t.env.draws } ∧ ((∀ x nn, i ≠ .rnd x nn) → t.env.draws = s.env.draws)

/-- R36, R38, R250: over every step, `QUIRKS` changes by a Reset alone, `KEYS` by SetKeys and Reset alone, and the font
parameters by nothing. -/
def Obligations.InputsBelongToTheEnvironment : Prop :=
  ∀ s t : State, step s = .next t → t.mem.font = s.mem.font ∧
    (t.quirks ≠ s.quirks → ∃ program q, s.nextOp = .reset program q ∧ t.quirks = q) ∧
    (t.keys ≠ s.keys → (∃ k, s.nextOp = .setKeys k ∧ t.keys = k) ∨
      ∃ program q, s.nextOp = .reset program q ∧ t.keys = 0)

/-! ## Invariants -/

/-- Every step keeps the memory in its canonical form, which is the model's own choice (assumption 8, DESIGN CHOICE). -/
def Obligations.MemoryStaysCanonical : Prop :=
  ∀ s t : State, s.mem.wf → step s = .next t → t.mem.wf

/-- R27, R120: every step keeps `pc` at most 0x10FE and the return addresses at most 4096. -/
def Obligations.PcStaysBounded : Prop :=
  ∀ s t : State, PcBounded s → step s = .next t → PcBounded t

/-- R41 (decision D10): every step keeps `KW = 0` outside a key wait. -/
def Obligations.WaitLatchBelongsToAWait : Prop :=
  ∀ s t : State, WaitLatched s → step s = .next t → WaitLatched t

/-- The three invariants hold at `State.reset` (decision D3). The first of them, the canonical form of the memory, is the
model's own choice (assumption 8, DESIGN CHOICE); the second is R27; the third is R41 (decision D10). -/
def Obligations.ResetMeetsTheInvariants : Prop :=
  State.reset.Inv

/-- R9, R27, R41: every state that any run can come to, after any Reset with any program, quirks and font and under any
schedule of the environment, meets the three invariants. The first of them, the canonical form of the memory, is the
model's own choice (assumption 8, DESIGN CHOICE); the third rests on decision D10. -/
def Obligations.ReachableStatesMeetTheInvariants : Prop :=
  ∀ s : State, Reachable s → s.Inv

/-! ## Runs (R9) -/

/-- R9: the core does what any schedule says, however long. Let an infinite schedule `sched` take the core through the
states `run`. Then `n` steps of an environment whose first `n` operations are `sched`'s lead from `run 0` to `run n`, and
leave it the operations after those; and a list holds any `n` operations. A tail of free operations is such an
environment for every `n` at once: `sched` is then `Config.freeOp`, of which nothing is known. How the schedule is held is
the model's choice (assumption 3, DESIGN CHOICE). -/
def Obligations.EveryScheduleIsARun : Prop :=
  ∀ (sched : Nat → Op) (run : Nat → State), Execution sched run → ∀ n : Nat,
    (∀ ops tail, (∀ k, k < n → ((run 0).withSchedule ops tail).env.scheduled k = sched k) →
      ∃ ops' tail', Sys2Proof.core.run n ((run 0).withSchedule ops tail) = .next ((run n).withSchedule ops' tail') ∧
        ∀ k, ((run n).withSchedule ops' tail').env.scheduled k =
          ((run 0).withSchedule ops tail).env.scheduled (n + k)) ∧
    (∀ tail, ∃ ops, ∀ k, k < n → ((run 0).withSchedule ops tail).env.scheduled k = sched k) ∧
    ∀ j, ((run 0).withSchedule [] (.free j)).env.scheduled n = Config.freeOp (j + n)
end

