-- ==== Sys2Proof/Laws/Decode.lean ====
section
/-! SUPPORT. The fields of an encoded word, and the decoder's answer on each form. -/

namespace Sys2Proof

/-! ### Fields of the three encodings (R91, R92) -/

@[simp] theorem opField_encodeNNN (op : Nibble) (nnn : Addr12) : opField (encodeNNN op nnn) = op := by
  apply BitVec.eq_of_getLsbD_eq
  intro k hk
  simp only [opField, encodeNNN, BitVec.getLsbD_extractLsb', BitVec.getLsbD_append]
  have : ¬(12 + k < 12) := by omega
  simp [hk, this]

@[simp] theorem nnnField_encodeNNN (op : Nibble) (nnn : Addr12) : nnnField (encodeNNN op nnn) = nnn := by
  apply BitVec.eq_of_getLsbD_eq
  intro k hk
  simp only [nnnField, encodeNNN, BitVec.getLsbD_extractLsb', BitVec.getLsbD_append]
  simp [hk]

@[simp] theorem opField_encodeXNN (op : Nibble) (x : Reg) (nn : Byte) : opField (encodeXNN op x nn) = op := by
  apply BitVec.eq_of_getLsbD_eq
  intro k hk
  simp only [opField, encodeXNN, BitVec.getLsbD_extractLsb', BitVec.getLsbD_append]
  have h1 : ¬(12 + k < 8) := by omega
  have h2 : ¬(12 + k - 8 < 4) := by omega
  have h3 : 12 + k - 8 - 4 = k := by omega
  simp [hk, h1, h2, h3]

@[simp] theorem xField_encodeXNN (op : Nibble) (x : Reg) (nn : Byte) : xField (encodeXNN op x nn) = x := by
  apply BitVec.eq_of_getLsbD_eq
  intro k hk
  simp only [xField, encodeXNN, BitVec.getLsbD_extractLsb', BitVec.getLsbD_append]
  have h1 : ¬(8 + k < 8) := by omega
  simp [hk, h1]

@[simp] theorem nnField_encodeXNN (op : Nibble) (x : Reg) (nn : Byte) : nnField (encodeXNN op x nn) = nn := by
  apply BitVec.eq_of_getLsbD_eq
  intro k hk
  simp only [nnField, encodeXNN, BitVec.getLsbD_extractLsb', BitVec.getLsbD_append]
  simp [hk]

/-- Format `XYN` is format `XNN` with the low byte in two nibbles. -/
theorem encodeXYN_eq (op : Nibble) (x y : Reg) (n : Nibble) : encodeXYN op x y n = encodeXNN op x (y ++ n : Byte) := rfl

@[simp] theorem opField_encodeXYN (op : Nibble) (x y : Reg) (n : Nibble) : opField (encodeXYN op x y n) = op := by
  simp [encodeXYN_eq]

@[simp] theorem xField_encodeXYN (op : Nibble) (x y : Reg) (n : Nibble) : xField (encodeXYN op x y n) = x := by
  simp [encodeXYN_eq]

@[simp] theorem yField_encodeXYN (op : Nibble) (x y : Reg) (n : Nibble) : yField (encodeXYN op x y n) = y := by
  apply BitVec.eq_of_getLsbD_eq
  intro k hk
  simp only [yField, encodeXYN, BitVec.getLsbD_extractLsb', BitVec.getLsbD_append]
  have h1 : 4 + k < 8 := by omega
  have h2 : ¬(4 + k < 4) := by omega
  simp [hk, h1, h2]

@[simp] theorem nField_encodeXYN (op : Nibble) (x y : Reg) (n : Nibble) : nField (encodeXYN op x y n) = n := by
  apply BitVec.eq_of_getLsbD_eq
  intro k hk
  simp only [nField, encodeXYN, BitVec.getLsbD_extractLsb', BitVec.getLsbD_append]
  have h1 : k < 8 := by omega
  simp [hk, h1]

/-! ### A word is its fields -/

theorem encodeNNN_fields (w : Word) : encodeNNN (opField w) (nnnField w) = w := by
  apply BitVec.eq_of_getLsbD_eq
  intro k hk
  simp only [opField, nnnField, encodeNNN, BitVec.getLsbD_extractLsb', BitVec.getLsbD_append]
  by_cases h : k < 12
  · simp [h]
  · have h1 : k - 12 < 4 := by omega
    have h2 : 12 + (k - 12) = k := by omega
    simp [h, h1, h2]

theorem encodeXNN_fields (w : Word) : encodeXNN (opField w) (xField w) (nnField w) = w := by
  apply BitVec.eq_of_getLsbD_eq
  intro k hk
  simp only [opField, xField, nnField, encodeXNN, BitVec.getLsbD_extractLsb', BitVec.getLsbD_append]
  by_cases h : k < 8
  · simp [h]
  · by_cases h1 : k - 8 < 4
    · have h2 : 8 + (k - 8) = k := by omega
      simp [h, h1, h2]
    · have h2 : k - 8 - 4 < 4 := by omega
      have h3 : 12 + (k - 8 - 4) = k := by omega
      simp [h, h1, h2, h3]

theorem nnField_append (w : Word) : (yField w ++ nField w : Byte) = nnField w := by
  apply BitVec.eq_of_getLsbD_eq
  intro k hk
  simp only [yField, nField, nnField, BitVec.getLsbD_extractLsb', BitVec.getLsbD_append]
  by_cases h : k < 4
  · simp [h, hk]
  · have h1 : k - 4 < 4 := by omega
    have h2 : 4 + (k - 4) = k := by omega
    simp [h, hk, h1, h2]

theorem encodeXYN_fields (w : Word) : encodeXYN (opField w) (xField w) (yField w) (nField w) = w := by
  rw [encodeXYN_eq, nnField_append, encodeXNN_fields]

/-! ### Bytes of a word (R63) -/

/-- A word stored high byte first and read back is the word. -/
theorem wordOfBytes_bytes (w : Word) : wordOfBytes (w.extractLsb' 8 8) (w.extractLsb' 0 8) = w := by
  apply BitVec.eq_of_getLsbD_eq
  intro k hk
  simp only [wordOfBytes, BitVec.getLsbD_extractLsb', BitVec.getLsbD_append]
  by_cases h : k < 8
  · simp [h]
  · have h1 : k - 8 < 8 := by omega
    have h2 : 8 + (k - 8) = k := by omega
    simp [h, h1, h2]

/-- R63: the byte at the lower address is the high byte. -/
theorem toNat_wordOfBytes (hi lo : Byte) : (wordOfBytes hi lo).toNat = hi.toNat * 256 + lo.toNat := by
  have h1 := hi.isLt
  have h2 := lo.isLt
  simp only [wordOfBytes, BitVec.toNat_append]
  rw [Nat.shiftLeft_eq, Nat.mul_comm, ← Nat.two_pow_add_eq_or_of_lt h2]

end Sys2Proof
end

