-- ==== Sys2Proof/Laws/Display.lean ====
section
/-! SUPPORT. The laws of the display: read after write of a cell, and what the drawing operations do pixel by pixel. -/

namespace Sys2Proof.Machine

theorem cellAt_setCell (d : Display) {row col : Nat} (hr : row < 32) (hc : col < 8) (b : Byte) (r c : Nat) :
    cellAt (setCell d row col b) r c = if r = row ∧ c = col then b else cellAt d r c := by
  unfold cellAt setCell
  rw [dif_pos (And.intro hr hc)]
  by_cases h : r < 32 ∧ c < 8
  · simp only [dif_pos h, Vector.getElem_set]
    by_cases h1 : r = row
    · subst h1
      by_cases h2 : c = col
      · subst h2; simp
      · have : col ≠ c := fun e => h2 e.symm
        simp [h2, this]
    · have : row ≠ r := fun e => h1 e.symm
      simp [h1, this]
  · have : ¬(r = row ∧ c = col) := fun e => h (by omega)
    simp only [dif_neg h, if_neg this]

/-- Two displays with the same cells are the same data. -/
theorem display_ext {d e : Display} (h : ∀ r c, r < 32 → c < 8 → cellAt d r c = cellAt e r c) : d = e := by
  apply Vector.ext
  intro r hr
  apply Vector.ext
  intro c hc
  simpa [cellAt, hr, hc] using h r c hr hc

/-- Two displays with the same pixels are the same data. -/
theorem display_ext_pixel {d e : Display} (h : ∀ x y, x < 64 → y < 32 → pixelAt d x y = pixelAt e x y) : d = e := by
  apply display_ext
  intro r c hr hc
  apply BitVec.eq_of_getLsbD_eq
  intro k hk
  have := h (8 * c + (7 - k)) r (by omega) hr
  have e1 : (8 * c + (7 - k)) / 8 = c := by omega
  have e2 : 7 - (8 * c + (7 - k)) % 8 = k := by omega
  simpa only [pixelAt, e1, e2] using this

theorem cellAt_blankDisplay (r c : Nat) : cellAt blankDisplay r c = 0 := by
  unfold cellAt blankDisplay
  split <;> simp

theorem pixelAt_blankDisplay (x y : Nat) : pixelAt blankDisplay x y = false := by
  simp [pixelAt, cellAt_blankDisplay]

/-! ### One cell -/

/-- XOR into a cell toggles exactly the pixels of the bits in that cell. -/
theorem pixelAt_blitCell {row col : Nat} (hr : row < 32) (hc : col < 8) (bits : Byte) (p : Display × Bool)
    (x y : Nat) :
    pixelAt (blitCell row col bits p).1 x y =
      (pixelAt p.1 x y ^^ (decide (y = row ∧ x / 8 = col) && bits.getLsbD (7 - x % 8))) := by
  simp only [pixelAt, blitCell, cellAt_setCell _ hr hc]
  by_cases h : y = row ∧ x / 8 = col
  · simp [h]
  · simp [h]

/-- A cell reports a hit iff one of the bits falls on a pixel that was on. -/
theorem blitCell_hit (row col : Nat) (bits : Byte) (p : Display × Bool) :
    (blitCell row col bits p).2 = true ↔
      p.2 = true ∨ ∃ x, x / 8 = col ∧ pixelAt p.1 x row = true ∧ bits.getLsbD (7 - x % 8) = true := by
  simp only [blitCell, Bool.or_eq_true, bne_iff_ne, ne_eq]
  refine or_congr_right ⟨fun h => ?_, fun ⟨x, hx, h1, h2⟩ h => ?_⟩
  · by_contra hn
    apply h
    apply BitVec.eq_of_getLsbD_eq
    intro k hk
    by_contra hb
    simp only [BitVec.getLsbD_and, BitVec.ofNat_eq_ofNat, BitVec.getLsbD_zero, Bool.not_eq_false,
      Bool.and_eq_true] at hb
    refine hn ⟨8 * col + (7 - k), by omega, ?_, ?_⟩
    · have e1 : (8 * col + (7 - k)) / 8 = col := by omega
      have e2 : 7 - (8 * col + (7 - k)) % 8 = k := by omega
      simpa only [pixelAt, e1, e2] using hb.1
    · have e2 : 7 - (8 * col + (7 - k)) % 8 = k := by omega
      simpa only [e2] using hb.2
  · have := congrArg (fun v : Byte => v.getLsbD (7 - x % 8)) h
    simp only [BitVec.getLsbD_and] at this
    simp only [pixelAt, hx] at h1
    simp [h1, h2] at this

/-! ### One row -/

/-- The left cell's part of a sprite row. -/
theorem leftBits (px : Nat) (b : Byte) (x : Nat) (hx : x / 8 = px / 8) :
    (b >>> (px % 8)).getLsbD (7 - x % 8) = spriteRowPixel px b x := by
  simp only [spriteRowPixel, BitVec.getLsbD_ushiftRight]
  by_cases h : px ≤ x ∧ x < px + 8
  · have : px % 8 + (7 - x % 8) = 7 - (x - px) := by omega
    simp [h, this]
  · rw [BitVec.getLsbD_of_ge _ _ (by omega)]
    simp [h]

/-- The right cell's part of a sprite row. -/
theorem rightBits (px : Nat) (b : Byte) (x : Nat) (hx : x / 8 = px / 8 + 1) :
    (b <<< (8 - px % 8)).getLsbD (7 - x % 8) = spriteRowPixel px b x := by
  simp only [spriteRowPixel, BitVec.getLsbD_shiftLeft]
  by_cases h : px ≤ x ∧ x < px + 8
  · have h1 : 7 - x % 8 - (8 - px % 8) = 7 - (x - px) := by omega
    have h2 : ¬(7 - x % 8 < 8 - px % 8) := by omega
    have h3 : 7 - x % 8 < 8 := by omega
    simp [h, h1, h2, h3]
  · have h2 : 7 - x % 8 < 8 - px % 8 := by omega
    simp [h, h2]

/-- A sprite row lights no column outside its two cells. -/
theorem spriteRowPixel_far (px : Nat) (b : Byte) (x : Nat) (h1 : x / 8 ≠ px / 8)
    (h2 : x / 8 ≠ px / 8 + 1 ∨ px % 8 = 0) : spriteRowPixel px b x = false := by
  have : ¬(px ≤ x ∧ x < px + 8) := by omega
  simp [spriteRowPixel, this]

/-- A sprite row toggles exactly its lit pixels on the screen (R192). -/
theorem pixelAt_blitRow {px row : Nat} (hp : px < 64) (hr : row < 32) (b : Byte) (p : Display × Bool) {x : Nat}
    (hx : x < 64) (y : Nat) :
    pixelAt (blitRow px row b p).1 x y =
      (pixelAt p.1 x y ^^ (decide (y = row) && spriteRowPixel px b x)) := by
  unfold blitRow
  by_cases hy : y = row
  · subst hy
    dsimp only
    split
    · rename_i h
      rw [pixelAt_blitCell hr (by omega), pixelAt_blitCell hr (by omega)]
      by_cases h1 : x / 8 = px / 8
      · have : x / 8 ≠ px / 8 + 1 := by omega
        simp [h1, leftBits px b x h1]
      · by_cases h2 : x / 8 = px / 8 + 1
        · simp [h2, rightBits px b x h2]
        · simp [h1, h2, spriteRowPixel_far px b x h1 (.inl h2)]
    · rename_i h
      rw [pixelAt_blitCell hr (by omega)]
      by_cases h1 : x / 8 = px / 8
      · simp [h1, leftBits px b x h1]
      · simp [h1, spriteRowPixel_far px b x h1 (by omega)]
  · dsimp only
    split
    · rw [pixelAt_blitCell hr (by omega), pixelAt_blitCell hr (by omega)]
      simp [hy]
    · rw [pixelAt_blitCell hr (by omega)]
      simp [hy]

/-- A sprite row reports a hit iff one of its lit pixels on the screen was on (R192). -/
theorem blitRow_hit {px row : Nat} (hp : px < 64) (hr : row < 32) (b : Byte) (p : Display × Bool) :
    (blitRow px row b p).2 = true ↔
      p.2 = true ∨ ∃ x, x < 64 ∧ pixelAt p.1 x row = true ∧ spriteRowPixel px b x = true := by
  unfold blitRow
  dsimp only
  split
  · rename_i h
    rw [blitCell_hit, blitCell_hit, or_assoc]
    refine or_congr_right ⟨?_, ?_⟩
    · rintro (⟨x, hx, h1, h2⟩ | ⟨x, hx, h1, h2⟩)
      · exact ⟨x, by omega, h1, by rwa [← leftBits px b x hx]⟩
      · refine ⟨x, by omega, ?_, by rwa [← rightBits px b x hx]⟩
        rw [pixelAt_blitCell hr (by omega)] at h1
        have : x / 8 ≠ px / 8 := by omega
        simpa [this] using h1
    · rintro ⟨x, hx, h1, h2⟩
      by_cases h3 : x / 8 = px / 8
      · exact .inl ⟨x, h3, h1, by rwa [leftBits px b x h3]⟩
      · by_cases h4 : x / 8 = px / 8 + 1
        · refine .inr ⟨x, h4, ?_, by rwa [rightBits px b x h4]⟩
          rw [pixelAt_blitCell hr (by omega)]
          simpa [h3] using h1
        · simp [spriteRowPixel_far px b x h3 (.inl h4)] at h2
  · rename_i h
    rw [blitCell_hit]
    refine or_congr_right ⟨?_, ?_⟩
    · rintro ⟨x, hx, h1, h2⟩
      exact ⟨x, by omega, h1, by rwa [← leftBits px b x hx]⟩
    · rintro ⟨x, hx, h1, h2⟩
      by_cases h3 : x / 8 = px / 8
      · exact ⟨x, h3, h1, by rwa [leftBits px b x h3]⟩
      · simp [spriteRowPixel_far px b x h3 (by omega)] at h2

/-! ### The whole sprite -/

/-- The rows drawn toggle exactly the lit pixels of those rows (R192). -/
theorem pixelAt_blitRows (m : Memory) (i : Nat) {px py : Nat} (hp : px < 64) (p : Display × Bool) {x : Nat}
    (hx : x < 64) (y : Nat) : ∀ rows, py + rows ≤ 32 →
    pixelAt (blitRows m i px py rows p).1 x y =
      (pixelAt p.1 x y ^^ (decide (py ≤ y ∧ y < py + rows) && spriteRowPixel px (m.read (i + (y - py))) x)) := by
  intro rows
  induction rows with
  | zero =>
    intro _
    have : ¬(py ≤ y ∧ y < py + 0) := by omega
    simp only [blitRows, this, decide_false, Bool.false_and, Bool.xor_false]
  | succ r ih =>
    intro h
    rw [blitRows, pixelAt_blitRow hp (by omega) _ _ hx, ih (by omega)]
    by_cases h1 : y = py + r
    · have h2 : ¬(py ≤ y ∧ y < py + r) := by omega
      have h3 : py ≤ y ∧ y < py + (r + 1) := by omega
      have h4 : y - py = r := by omega
      rw [decide_eq_true h1, decide_eq_false h2, decide_eq_true h3, h4]
      simp
    · by_cases h2 : py ≤ y ∧ y < py + r
      · have h3 : py ≤ y ∧ y < py + (r + 1) := by omega
        rw [decide_eq_false h1, decide_eq_true h2, decide_eq_true h3]
        simp
      · have h3 : ¬(py ≤ y ∧ y < py + (r + 1)) := by omega
        rw [decide_eq_false h1, decide_eq_false h2, decide_eq_false h3]
        simp

/-- The draw reports a hit iff a lit pixel of a drawn row fell on a pixel that was on before the draw (R192). -/
theorem blitRows_hit (m : Memory) (i : Nat) {px py : Nat} (hp : px < 64) (p : Display × Bool) :
    ∀ rows, py + rows ≤ 32 →
    ((blitRows m i px py rows p).2 = true ↔
      p.2 = true ∨ ∃ x y, x < 64 ∧ (py ≤ y ∧ y < py + rows) ∧ pixelAt p.1 x y = true ∧
        spriteRowPixel px (m.read (i + (y - py))) x = true) := by
  intro rows
  induction rows with
  | zero =>
    intro _
    simp only [blitRows]
    constructor
    · exact .inl
    · rintro (h | ⟨x, y, _, h, _⟩)
      · exact h
      · omega
  | succ r ih =>
    intro h
    rw [blitRows, blitRow_hit hp (by omega), ih (by omega), or_assoc]
    refine or_congr_right ⟨?_, ?_⟩
    · rintro (⟨x, y, hx, hy, h1, h2⟩ | ⟨x, hx, h1, h2⟩)
      · exact ⟨x, y, hx, by omega, h1, h2⟩
      · refine ⟨x, py + r, hx, by omega, ?_, by simpa using h2⟩
        rw [pixelAt_blitRows m i hp p hx _ r (by omega)] at h1
        simpa using h1
    · rintro ⟨x, y, hx, hy, h1, h2⟩
      by_cases h3 : y = py + r
      · subst h3
        refine .inr ⟨x, hx, ?_, by simpa using h2⟩
        rw [pixelAt_blitRows m i hp p hx _ r (by omega)]
        simpa using h1
      · exact .inl ⟨x, y, hx, by omega, h1, h2⟩

/-- Everything `DXYN` does to the display: on the screen, each pixel of the sprite toggles (R192). -/
theorem pixelAt_drawn (s : State) (x y : Reg) (n : Nibble) {col row : Nat} (hc : col < 64) (hr : row < 32) :
    pixelAt (s.drawn x y n).1 col row = (pixelAt s.disp col row ^^ s.spritePixel x y n col row) := by
  unfold State.drawn State.spritePixel State.startColumn State.startRow State.drawnRows State.startRow
  rw [pixelAt_blitRows s.mem s.i.toNat (by omega) _ hc _ _ (by omega)]
  congr 2
  rw [decide_eq_decide]
  omega

/-- The collision of `DXYN`: some lit pixel of the sprite on the screen was on (R192). -/
theorem drawn_hit (s : State) (x y : Reg) (n : Nibble) :
    (s.drawn x y n).2 = true ↔
      ∃ col row, col < 64 ∧ row < 32 ∧ pixelAt s.disp col row = true ∧ s.spritePixel x y n col row = true := by
  unfold State.drawn State.spritePixel State.startColumn State.startRow State.drawnRows State.startRow
  rw [blitRows_hit s.mem s.i.toNat (by omega) _ _ (by omega)]
  simp only [Bool.false_eq_true, false_or, Bool.and_eq_true, decide_eq_true_eq]
  constructor
  · rintro ⟨c, r, hc, hr, h1, h2⟩
    exact ⟨c, r, hc, by omega, h1, by omega, h2⟩
  · rintro ⟨c, r, hc, hr, h1, h2, h3⟩
    exact ⟨c, r, hc, by omega, h1, h3⟩

end Sys2Proof.Machine
end

