-- ==== Sys2Proof/Laws/Memory.lean ====
section
/-! SUPPORT. The laws of memory: read after write, the canonical form is kept, equal memories are equal data, and what
the block accesses do. -/

namespace Sys2Proof.Machine

@[simp] theorem Memory.write_font (m : Memory) (a : Nat) (b : Byte) : (m.write a b).font = m.font := by
  unfold Memory.write
  split <;> [split; skip] <;> rfl

@[simp] theorem Memory.writeBytes_font (bs : List Byte) : ∀ (m : Memory) (a : Nat),
    (m.writeBytes a bs).font = m.font := by
  induction bs with
  | nil => intro m a; rfl
  | cons b bs ih => intro m a; simp [Memory.writeBytes, ih]

/-! ### Lists of cells -/

theorem lookupCell_insertCell (a : Nat) (b : Byte) (l : List Host.Cell) (c : Nat) :
    lookupCell (insertCell a b l) c = if c = a then some b else lookupCell l c := by
  induction l with
  | nil => simp [insertCell, lookupCell]
  | cons p l ih =>
    obtain ⟨k, d⟩ := p
    simp only [insertCell]
    split
    · simp [lookupCell]
    · split
      · subst_vars
        simp only [lookupCell]
        split <;> rfl
      · rename_i h1 h2
        simp only [lookupCell, ih]
        by_cases h : c = k
        · have : c ≠ a := by omega
          simp [h]; omega
        · simp [h]

theorem lookupCell_of_lt {l : List Host.Cell} {a : Nat} (h : ∀ p ∈ l, a < p.1) : lookupCell l a = none := by
  induction l with
  | nil => rfl
  | cons p l ih =>
    obtain ⟨k, d⟩ := p
    have hk : a < k := h (k, d) (by simp)
    have : a ≠ k := by omega
    simp [lookupCell, this, ih (fun q hq => h q (by simp [hq]))]

theorem lookupCell_eraseCell {l : List Host.Cell} (hl : l.Pairwise (fun p q => p.1 < q.1)) (a c : Nat) :
    lookupCell (eraseCell a l) c = if c = a then none else lookupCell l c := by
  induction l with
  | nil => simp [eraseCell, lookupCell]
  | cons p l ih =>
    obtain ⟨k, d⟩ := p
    obtain ⟨hk, hl⟩ := List.pairwise_cons.1 hl
    simp only [eraseCell]
    split
    · subst_vars
      by_cases h : c = k
      · subst h; simpa using lookupCell_of_lt hk
      · simp [lookupCell, h]
    · rename_i h1
      simp only [lookupCell, ih hl]
      by_cases h : c = k
      · have : c ≠ a := by omega
        simp [h]; omega
      · simp [h]

theorem mem_insertCell {a : Nat} {b : Byte} {l : List Host.Cell} {p : Host.Cell} (h : p ∈ insertCell a b l) :
    p = (a, b) ∨ p ∈ l := by
  induction l with
  | nil => simpa [insertCell] using h
  | cons q l ih =>
    simp only [insertCell] at h
    split at h
    · simpa using h
    · split at h
      · rcases List.mem_cons.1 h with h | h
        · exact .inl h
        · exact .inr (by simp [h])
      · rcases List.mem_cons.1 h with h | h
        · exact .inr (by simp [h])
        · rcases ih h with h | h
          · exact .inl h
          · exact .inr (by simp [h])

theorem mem_eraseCell {a : Nat} {l : List Host.Cell} {p : Host.Cell} (h : p ∈ eraseCell a l) : p ∈ l := by
  induction l with
  | nil => simp [eraseCell] at h
  | cons q l ih =>
    simp only [eraseCell] at h
    split at h
    · simp [h]
    · rcases List.mem_cons.1 h with h | h
      · simp [h]
      · simp [ih h]

theorem pairwise_insertCell {l : List Host.Cell} (hl : l.Pairwise (fun p q => p.1 < q.1)) (a : Nat) (b : Byte) :
    (insertCell a b l).Pairwise (fun p q => p.1 < q.1) := by
  induction l with
  | nil => simp [insertCell]
  | cons q l ih =>
    obtain ⟨k, d⟩ := q
    obtain ⟨hk, hl'⟩ := List.pairwise_cons.1 hl
    simp only [insertCell]
    split
    · rename_i h
      refine List.pairwise_cons.2 ⟨fun p hp => ?_, hl⟩
      rcases List.mem_cons.1 hp with rfl | hp
      · exact h
      · exact Nat.lt_trans h (hk p hp)
    · split
      · rename_i h; subst h
        exact List.pairwise_cons.2 ⟨hk, hl'⟩
      · refine List.pairwise_cons.2 ⟨fun p hp => ?_, ih hl'⟩
        rcases mem_insertCell hp with rfl | hp
        · show k < a
          omega
        · exact hk p hp

theorem pairwise_eraseCell {l : List Host.Cell} (hl : l.Pairwise (fun p q => p.1 < q.1)) (a : Nat) :
    (eraseCell a l).Pairwise (fun p q => p.1 < q.1) := by
  induction l with
  | nil => simp [eraseCell]
  | cons q l ih =>
    obtain ⟨hk, hl'⟩ := List.pairwise_cons.1 hl
    simp only [eraseCell]
    split
    · exact hl'
    · exact List.pairwise_cons.2 ⟨fun p hp => hk p (mem_eraseCell hp), ih hl'⟩

/-! ### The primitives (R61, R62) -/

/-- A write keeps the canonical form. -/
theorem Memory.wf_write {m : Memory} (h : m.wf) (a : Nat) (b : Byte) : (m.write a b).wf := by
  unfold Memory.write
  split
  · rename_i ha
    split
    · exact ⟨pairwise_eraseCell h.1 a, fun p hp => h.2 p (mem_eraseCell hp)⟩
    · rename_i hb
      refine ⟨pairwise_insertCell h.1 a b, fun p hp => ?_⟩
      rcases mem_insertCell hp with rfl | hp
      · exact ⟨ha, hb⟩
      · exact h.2 p hp
  · exact h

/-- Read after write: the byte written, and every other address as before (R62). -/
theorem Memory.read_write {m : Memory} (h : m.wf) {a : Nat} (ha : a < 4096) (b : Byte) (c : Nat) :
    (m.write a b).read c = if c = a then b else m.read c := by
  unfold Memory.write
  rw [if_pos ha]
  split
  · rename_i hb
    simp only [Memory.read, lookupCell_eraseCell h.1]
    by_cases hc : c = a
    · simp [hc, hb]
    · simp [hc]
  · simp only [Memory.read, lookupCell_insertCell]
    by_cases hc : c = a <;> simp [hc]

/-- Two canonical memories over one font that read alike are the same data. -/
theorem cells_ext {f : Font} : ∀ {l k : List Host.Cell}, (Memory.mk f l).wf → (Memory.mk f k).wf →
    (∀ a, (Memory.mk f l).read a = (Memory.mk f k).read a) → l = k := by
  intro l
  induction l with
  | nil =>
    intro k _ hk h
    cases k with
    | nil => rfl
    | cons p k =>
      have := h p.1
      simp [Memory.read, lookupCell] at this
      exact absurd this.symm (hk.2 p (by simp)).2
  | cons p l ih =>
    intro k hl hk h
    cases k with
    | nil =>
      have := h p.1
      simp [Memory.read, lookupCell] at this
      exact absurd this (hl.2 p (by simp)).2
    | cons q k =>
      obtain ⟨pa, pb⟩ := p
      obtain ⟨qa, qb⟩ := q
      obtain ⟨hl1, hl2⟩ := hl
      obtain ⟨hk1, hk2⟩ := hk
      obtain ⟨hlp, hlt⟩ := List.pairwise_cons.1 hl1
      obtain ⟨hkq, hkt⟩ := List.pairwise_cons.1 hk1
      have hpa : pa = qa := by
        rcases Nat.lt_trichotomy pa qa with hlt' | he | hgt
        · have := h pa
          have hnone : lookupCell ((qa, qb) :: k) pa = none :=
            lookupCell_of_lt (fun r hr => by
              rcases List.mem_cons.1 hr with rfl | hr
              · exact hlt'
              · exact Nat.lt_trans hlt' (hkq r hr))
          simp only [Memory.read, hnone] at this
          simp [lookupCell] at this
          exact absurd this (hl2 (pa, pb) (by simp)).2
        · exact he
        · have := h qa
          have hnone : lookupCell ((pa, pb) :: l) qa = none :=
            lookupCell_of_lt (fun r hr => by
              rcases List.mem_cons.1 hr with rfl | hr
              · exact hgt
              · exact Nat.lt_trans hgt (hlp r hr))
          simp only [Memory.read, hnone] at this
          simp [lookupCell] at this
          exact absurd this.symm (hk2 (qa, qb) (by simp)).2
      subst hpa
      have hb : pb = qb := by simpa [Memory.read, lookupCell] using h pa
      subst hb
      congr 1
      refine ih ⟨hlt, fun r hr => hl2 r (by simp [hr])⟩ ⟨hkt, fun r hr => hk2 r (by simp [hr])⟩ (fun a => ?_)
      by_cases ha : a = pa
      · subst ha
        simp [Memory.read, lookupCell_of_lt hlp, lookupCell_of_lt hkq]
      · simpa [Memory.read, lookupCell, ha] using h a

/-! ### Block accesses (R65, R67) -/

theorem Memory.wf_writeBytes (bs : List Byte) : ∀ {m : Memory}, m.wf → ∀ a, (m.writeBytes a bs).wf := by
  induction bs with
  | nil => intro m h a; exact h
  | cons b bs ih => intro m h a; exact ih (Memory.wf_write h a b) (a + 1)

/-- A block store within memory: its bytes at their addresses, every other address as before. -/
theorem Memory.read_writeBytes (bs : List Byte) : ∀ {m : Memory}, m.wf → ∀ {a : Nat}, a + bs.length ≤ 4096 → ∀ c,
    (m.writeBytes a bs).read c =
      if h : a ≤ c ∧ c < a + bs.length then bs[c - a]'(by omega) else m.read c := by
  induction bs with
  | nil =>
    intro m _ a _ c
    have : ¬(a ≤ c ∧ c < a + ([] : List Byte).length) := by simp
    rw [dif_neg this]; rfl
  | cons b bs ih =>
    intro m h a ha c
    simp only [List.length_cons] at ha
    rw [Memory.writeBytes, ih (Memory.wf_write h a b) (by omega), Memory.read_write h (by omega)]
    by_cases h1 : c = a
    · have : ¬(a + 1 ≤ c ∧ c < a + 1 + bs.length) := by omega
      simp [h1]
    · by_cases h2 : a + 1 ≤ c ∧ c < a + 1 + bs.length
      · have h3 : a ≤ c ∧ c < a + (b :: bs).length := by simp only [List.length_cons]; omega
        rw [dif_pos h2, dif_pos h3, List.getElem_cons, dif_neg (by omega)]
        congr 1
      · have h3 : ¬(a ≤ c ∧ c < a + (b :: bs).length) := by simp only [List.length_cons]; omega
        rw [dif_neg h2, dif_neg h3, if_neg h1]

@[simp] theorem Memory.length_readBytes (n : Nat) : ∀ (m : Memory) (a : Nat), (m.readBytes a n).length = n := by
  induction n with
  | zero => intro m a; rfl
  | succ n ih => intro m a; simp [Memory.readBytes, ih]

theorem Memory.getElem_readBytes (n : Nat) : ∀ (m : Memory) (a j : Nat) (h : j < (m.readBytes a n).length),
    (m.readBytes a n)[j] = m.read (a + j) := by
  induction n with
  | zero => intro m a j h; simp at h
  | succ n ih =>
    intro m a j h
    cases j with
    | zero => simp [Memory.readBytes]
    | succ j => simp [Memory.readBytes, ih, Nat.add_assoc, Nat.add_comm 1 j]

end Sys2Proof.Machine
end

