-- ==== Sys2Proof/Laws/State.lean ====
section
/-! SUPPORT. The small lemmas of State and of its updates: one per field per update, so that no later proof unfolds a
record update, and the laws of the register file. -/

namespace Sys2Proof.Machine

/-! ### `writeV` leaves every field but `v` -/

@[simp] theorem State.writeV_i (s : State) (r : Reg) (b : Byte) : (s.writeV r b).i = s.i := rfl
@[simp] theorem State.writeV_pc (s : State) (r : Reg) (b : Byte) : (s.writeV r b).pc = s.pc := rfl
@[simp] theorem State.writeV_sp (s : State) (r : Reg) (b : Byte) : (s.writeV r b).sp = s.sp := rfl
@[simp] theorem State.writeV_stack (s : State) (r : Reg) (b : Byte) : (s.writeV r b).stack = s.stack := rfl
@[simp] theorem State.writeV_dt (s : State) (r : Reg) (b : Byte) : (s.writeV r b).dt = s.dt := rfl
@[simp] theorem State.writeV_st (s : State) (r : Reg) (b : Byte) : (s.writeV r b).st = s.st := rfl
@[simp] theorem State.writeV_mem (s : State) (r : Reg) (b : Byte) : (s.writeV r b).mem = s.mem := rfl
@[simp] theorem State.writeV_disp (s : State) (r : Reg) (b : Byte) : (s.writeV r b).disp = s.disp := rfl
@[simp] theorem State.writeV_quirks (s : State) (r : Reg) (b : Byte) : (s.writeV r b).quirks = s.quirks := rfl
@[simp] theorem State.writeV_keys (s : State) (r : Reg) (b : Byte) : (s.writeV r b).keys = s.keys := rfl
@[simp] theorem State.writeV_kw (s : State) (r : Reg) (b : Byte) : (s.writeV r b).kw = s.kw := rfl
@[simp] theorem State.writeV_status (s : State) (r : Reg) (b : Byte) : (s.writeV r b).status = s.status := rfl
@[simp] theorem State.writeV_env (s : State) (r : Reg) (b : Byte) : (s.writeV r b).env = s.env := rfl

/-! ### `advance` leaves every field but `pc` -/

@[simp] theorem State.advance_v (s : State) : (s.advance).v = s.v := rfl
@[simp] theorem State.advance_i (s : State) : (s.advance).i = s.i := rfl
@[simp] theorem State.advance_sp (s : State) : (s.advance).sp = s.sp := rfl
@[simp] theorem State.advance_stack (s : State) : (s.advance).stack = s.stack := rfl
@[simp] theorem State.advance_dt (s : State) : (s.advance).dt = s.dt := rfl
@[simp] theorem State.advance_st (s : State) : (s.advance).st = s.st := rfl
@[simp] theorem State.advance_mem (s : State) : (s.advance).mem = s.mem := rfl
@[simp] theorem State.advance_disp (s : State) : (s.advance).disp = s.disp := rfl
@[simp] theorem State.advance_quirks (s : State) : (s.advance).quirks = s.quirks := rfl
@[simp] theorem State.advance_keys (s : State) : (s.advance).keys = s.keys := rfl
@[simp] theorem State.advance_kw (s : State) : (s.advance).kw = s.kw := rfl
@[simp] theorem State.advance_status (s : State) : (s.advance).status = s.status := rfl
@[simp] theorem State.advance_env (s : State) : (s.advance).env = s.env := rfl

/-! ### `enterFault` leaves every field but `status` -/

@[simp] theorem State.enterFault_v (s : State) (c : Cause) (n : Nat) : (s.enterFault c n).v = s.v := rfl
@[simp] theorem State.enterFault_i (s : State) (c : Cause) (n : Nat) : (s.enterFault c n).i = s.i := rfl
@[simp] theorem State.enterFault_pc (s : State) (c : Cause) (n : Nat) : (s.enterFault c n).pc = s.pc := rfl
@[simp] theorem State.enterFault_sp (s : State) (c : Cause) (n : Nat) : (s.enterFault c n).sp = s.sp := rfl
@[simp] theorem State.enterFault_stack (s : State) (c : Cause) (n : Nat) : (s.enterFault c n).stack = s.stack := rfl
@[simp] theorem State.enterFault_dt (s : State) (c : Cause) (n : Nat) : (s.enterFault c n).dt = s.dt := rfl
@[simp] theorem State.enterFault_st (s : State) (c : Cause) (n : Nat) : (s.enterFault c n).st = s.st := rfl
@[simp] theorem State.enterFault_mem (s : State) (c : Cause) (n : Nat) : (s.enterFault c n).mem = s.mem := rfl
@[simp] theorem State.enterFault_disp (s : State) (c : Cause) (n : Nat) : (s.enterFault c n).disp = s.disp := rfl
@[simp] theorem State.enterFault_quirks (s : State) (c : Cause) (n : Nat) : (s.enterFault c n).quirks = s.quirks := rfl
@[simp] theorem State.enterFault_keys (s : State) (c : Cause) (n : Nat) : (s.enterFault c n).keys = s.keys := rfl
@[simp] theorem State.enterFault_kw (s : State) (c : Cause) (n : Nat) : (s.enterFault c n).kw = s.kw := rfl
@[simp] theorem State.enterFault_env (s : State) (c : Cause) (n : Nat) : (s.enterFault c n).env = s.env := rfl

/-! ### `sampleRnd` leaves every field but `env` -/

@[simp] theorem State.sampleRnd_v (s : State) (o : Option Byte) : (s.sampleRnd o).v = s.v := rfl
@[simp] theorem State.sampleRnd_i (s : State) (o : Option Byte) : (s.sampleRnd o).i = s.i := rfl
@[simp] theorem State.sampleRnd_pc (s : State) (o : Option Byte) : (s.sampleRnd o).pc = s.pc := rfl
@[simp] theorem State.sampleRnd_sp (s : State) (o : Option Byte) : (s.sampleRnd o).sp = s.sp := rfl
@[simp] theorem State.sampleRnd_stack (s : State) (o : Option Byte) : (s.sampleRnd o).stack = s.stack := rfl
@[simp] theorem State.sampleRnd_dt (s : State) (o : Option Byte) : (s.sampleRnd o).dt = s.dt := rfl
@[simp] theorem State.sampleRnd_st (s : State) (o : Option Byte) : (s.sampleRnd o).st = s.st := rfl
@[simp] theorem State.sampleRnd_mem (s : State) (o : Option Byte) : (s.sampleRnd o).mem = s.mem := rfl
@[simp] theorem State.sampleRnd_disp (s : State) (o : Option Byte) : (s.sampleRnd o).disp = s.disp := rfl
@[simp] theorem State.sampleRnd_quirks (s : State) (o : Option Byte) : (s.sampleRnd o).quirks = s.quirks := rfl
@[simp] theorem State.sampleRnd_keys (s : State) (o : Option Byte) : (s.sampleRnd o).keys = s.keys := rfl
@[simp] theorem State.sampleRnd_kw (s : State) (o : Option Byte) : (s.sampleRnd o).kw = s.kw := rfl
@[simp] theorem State.sampleRnd_status (s : State) (o : Option Byte) : (s.sampleRnd o).status = s.status := rfl

@[simp] theorem State.advance_pc (s : State) : s.advance.pc = s.pc + 2 := rfl
@[simp] theorem State.enterFault_status (s : State) (c : Cause) (n : Nat) :
    (s.enterFault c n).status = .faulted c n := rfl
@[simp] theorem State.sampleRnd_rnd (s : State) (o : Option Byte) : (s.sampleRnd o).env.rnd = o := rfl
@[simp] theorem State.sampleRnd_ops (s : State) (o : Option Byte) : (s.sampleRnd o).env.ops = s.env.ops := rfl
@[simp] theorem State.sampleRnd_tail (s : State) (o : Option Byte) : (s.sampleRnd o).env.tail = s.env.tail := rfl
@[simp] theorem State.sampleRnd_draws (s : State) (o : Option Byte) : (s.sampleRnd o).env.draws = s.env.draws := rfl
@[simp] theorem State.sampleRnd_beeps (s : State) (o : Option Byte) : (s.sampleRnd o).env.beeps = s.env.beeps := rfl

/-! ### The environment's next operation and the schedule after it -/

theorem State.nextOp_cons {s : State} {op : Op} {rest : List Op} (h : s.env.ops = op :: rest) : s.nextOp = op := by
  simp [State.nextOp, h]

theorem Environment.moved_cons {e : Environment} {op : Op} {rest : List Op} (h : e.ops = op :: rest) :
    e.moved = { e with ops := rest } := by
  simp [Environment.moved, h]

/-- Everything a move of the schedule can do: the list and the tail alone. -/
theorem Environment.moved_eq (e : Environment) : e.moved = { e with ops := e.moved.ops, tail := e.moved.tail } := by
  unfold Environment.moved
  split <;> rfl

@[simp] theorem Environment.moved_rnd (e : Environment) : e.moved.rnd = e.rnd := by rw [e.moved_eq]
@[simp] theorem Environment.moved_draws (e : Environment) : e.moved.draws = e.draws := by rw [e.moved_eq]
@[simp] theorem Environment.moved_beeps (e : Environment) : e.moved.beeps = e.beeps := by rw [e.moved_eq]

/-! ### The register file -/

/-- Read after write of one register: the byte written, and every other register as before (R20). -/
theorem State.readV_writeV (s : State) (r q : Reg) (b : Byte) :
    (s.writeV r b).readV q = if q = r then b else s.readV q := by
  unfold State.readV State.writeV
  rw [Vector.getElem_set]
  by_cases h : q = r
  · simp [h]
  · have : r.toNat ≠ q.toNat := fun e => h (BitVec.eq_of_toNat_eq e.symm)
    simp [h, this]

@[simp] theorem State.readV_writeV_same (s : State) (r : Reg) (b : Byte) : (s.writeV r b).readV r = b := by
  simp [State.readV_writeV]

theorem State.readV_writeV_other (s : State) {r q : Reg} (b : Byte) (h : q ≠ r) :
    (s.writeV r b).readV q = s.readV q := by
  simp [State.readV_writeV, h]

/-- Two register files that read alike are the same data. -/
theorem State.v_ext {s t : State} (h : ∀ r, s.readV r = t.readV r) : s.v = t.v := by
  apply Vector.ext
  intro k hk
  have := h (BitVec.ofNat 4 k)
  simpa [State.readV, Nat.mod_eq_of_lt hk] using this

/-! ### Updates written as one record update -/

theorem State.writeV_eq (s : State) (r : Reg) (b : Byte) : s.writeV r b = { s with v := (s.writeV r b).v } := rfl

/-- The result and the flag: `VF` is the flag whatever the result register is (R140). -/
theorem State.readV_writeWithFlag (s : State) (x q : Reg) (b : Byte) (f : Bool) :
    (s.writeWithFlag x b f).readV q = if q = 15 then flagByte f else if q = x then b else s.readV q := by
  simp [State.writeWithFlag, State.readV_writeV]

theorem State.writeWithFlag_eq (s : State) (x : Reg) (b : Byte) (f : Bool) :
    s.writeWithFlag x b f = { s with v := (s.writeWithFlag x b f).v } := rfl

/-- A skip changes `pc` alone, by 2 or not at all (R127). -/
theorem State.skipIf_eq (s : State) (c : Bool) : s.skipIf c = { s with pc := if c then s.pc + 2 else s.pc } := by
  cases c <;> rfl

/-- R175: the index update changes `I` alone, and under the quirk only. -/
theorem State.advanceIndex_eq (s : State) (x : Reg) :
    s.advanceIndex x =
      { s with i := if s.quirks.incrementIndex then BitVec.ofNat 16 (s.i.toNat + x.toNat + 1) else s.i } := by
  unfold State.advanceIndex
  split <;> simp_all

/-- A block load changes the register file alone. -/
theorem State.writeBlock_eq (bs : List Byte) : ∀ (s : State) (k : Nat),
    s.writeBlock k bs = { s with v := (s.writeBlock k bs).v } := by
  induction bs with
  | nil => intro s k; rfl
  | cons b bs ih =>
    intro s k
    have := ih (s.writeV (BitVec.ofNat 4 k) b) (k + 1)
    simpa [State.writeBlock] using this

/-- What a block load leaves in each register: the byte of its position, or what it held (R177). -/
theorem State.readV_writeBlock (bs : List Byte) : ∀ (s : State) (k : Nat) (q : Reg), k + bs.length ≤ 16 →
    (s.writeBlock k bs).readV q =
      if h : k ≤ q.toNat ∧ q.toNat < k + bs.length then bs[q.toNat - k]'(by omega) else s.readV q := by
  induction bs with
  | nil =>
    intro s k q _
    have : ¬(k ≤ q.toNat ∧ q.toNat < k + ([] : List Byte).length) := by simp
    simp only [State.writeBlock, this, dite_false]
  | cons b bs ih =>
    intro s k q hk
    simp only [List.length_cons] at hk
    have hq := q.isLt
    have hkq : (q = BitVec.ofNat 4 k) ↔ q.toNat = k := by
      rw [← BitVec.toNat_inj, BitVec.toNat_ofNat, Nat.mod_eq_of_lt (by omega)]
    rw [State.writeBlock, ih _ _ _ (by omega), State.readV_writeV]
    by_cases h1 : q.toNat = k
    · have : ¬(k + 1 ≤ q.toNat ∧ q.toNat < k + 1 + bs.length) := by omega
      simp [hkq, h1]
    · by_cases h2 : k + 1 ≤ q.toNat ∧ q.toNat < k + 1 + bs.length
      · have h3 : k ≤ q.toNat ∧ q.toNat < k + (b :: bs).length := by simp only [List.length_cons]; omega
        rw [dif_pos h2, dif_pos h3, List.getElem_cons, dif_neg (by omega)]
        congr 1
      · have h3 : ¬(k ≤ q.toNat ∧ q.toNat < k + (b :: bs).length) := by simp only [List.length_cons]; omega
        rw [dif_neg h2, dif_neg h3, if_neg (by simpa [hkq] using h1)]

@[simp] theorem State.length_readBlock (n : Nat) : ∀ (s : State) (k : Nat), (s.readBlock k n).length = n := by
  induction n with
  | zero => intro s k; rfl
  | succ n ih => intro s k; simp [State.readBlock, ih]

theorem State.getElem_readBlock (n : Nat) : ∀ (s : State) (k j : Nat) (h : j < (s.readBlock k n).length),
    (s.readBlock k n)[j] = s.readV (BitVec.ofNat 4 (k + j)) := by
  induction n with
  | zero => intro s k j h; simp at h
  | succ n ih =>
    intro s k j h
    cases j with
    | zero => simp [State.readBlock]
    | succ j => simp [State.readBlock, ih, Nat.add_assoc, Nat.add_comm 1 j]

end Sys2Proof.Machine
end

