-- ==== Sys2Proof/Laws/Ops.lean ====
section
/-! SUPPORT. One lemma per shared operation that says everything it can do. -/

namespace Sys2Proof.Machine

/-- A raise changes `pc` back and `STATUS`, and nothing else (R244). -/
theorem raise_eq (c : Cause) (n : Nat) (s : State) :
    raise c n s = .next { s with pc := s.pc - 2, status := .faulted c n } := rfl

/-- A checked access answers a next state: the fault, or the effect (R174). -/
theorem State.checked_eq (s t : State) (last : Nat) :
    s.checked last t = .next
      (if s.i.toNat + last > 4095 then
        { s with pc := s.pc - 2, status := .faulted .dataAddressOutOfRange (max s.i.toNat 4096) }
       else t) := by
  unfold State.checked State.outOfRange
  by_cases h : s.i.toNat + last > 4095
  · simp [h, raise_eq, State.offendingAddress]
  · simp [h]

theorem State.checked_of_le {s t : State} {last : Nat} (h : s.i.toNat + last ≤ 4095) : s.checked last t = .next t := by
  rw [State.checked_eq, if_neg (by omega)]

theorem State.checked_of_gt {s t : State} {last : Nat} (h : s.i.toNat + last > 4095) :
    s.checked last t =
      .next { s with pc := s.pc - 2, status := .faulted .dataAddressOutOfRange (max s.i.toNat 4096) } := by
  rw [State.checked_eq, if_pos h]

/-- Stepping back over the advanced pc gives the address fetched from (R6). -/
@[simp] theorem add_two_sub_two (w : Word) : w + 2 - 2 = w := by
  simp

theorem State.fetchable_iff (s : State) : s.fetchable = true ↔ s.pc.toNat + 2 ≤ 4096 := by
  simp [State.fetchable]

/-- The advanced pc of a fetched instruction is `pc0 + 2` as a number (R6, R27). -/
theorem State.toNat_advance_pc {s : State} (h : s.fetchable = true) : (s.pc + 2).toNat = s.pc.toNat + 2 := by
  have h := (s.fetchable_iff).1 h
  rw [BitVec.toNat_add, Nat.mod_eq_of_lt]
  · rfl
  · show s.pc.toNat + 2 < 65536
    omega

@[simp] theorem toNat_zextAddr (nnn : Addr12) : (zextAddr nnn).toNat = nnn.toNat := by
  have := nnn.isLt
  simp only [zextAddr, BitVec.toNat_setWidth]
  omega

/-- The offset jump is exact: no wrap, no mask (R128). -/
theorem toNat_jump (nnn : Addr12) (b : Byte) : (zextAddr nnn + b.setWidth 16).toNat = nnn.toNat + b.toNat := by
  have h1 := nnn.isLt
  have h2 := b.isLt
  rw [BitVec.toNat_add, toNat_zextAddr, BitVec.toNat_setWidth]
  omega

/-- The register `BNNN` names under the quirk is the upper nibble of `NNN` (R128). -/
theorem jumpReg_eq (nnn : Addr12) : jumpReg nnn = BitVec.ofNat 4 (nnn.toNat / 256) := by
  apply BitVec.eq_of_toNat_eq
  simp [jumpReg, BitVec.extractLsb'_toNat, Nat.shiftRight_eq_div_pow]

/-- `FX29` points at the glyph of the low nibble (R172). -/
theorem State.toNat_glyphAddress (s : State) (b : Byte) :
    (s.glyphAddress b).toNat = s.mem.font.base.val + 5 * (b.toNat % 16) := by
  have := s.mem.font.base.isLt
  simp only [State.glyphAddress, BitVec.toNat_ofNat]
  omega

/-- The lowest released key, if any (R213). -/
theorem lowestKey_eq_some {w : Word} {k : Nat} :
    lowestKey w = some k ↔ k < 16 ∧ w.getLsbD k = true ∧ ∀ j, j < k → w.getLsbD j = false := by
  simp only [lowestKey, List.find?_range_eq_some, List.mem_range, Bool.not_eq_true']
  tauto

theorem lowestKey_eq_none {w : Word} : lowestKey w = none ↔ ∀ j, j < 16 → w.getLsbD j = false := by
  simp [lowestKey]

theorem State.getLsbD_released (s : State) {j : Nat} (h : j < 16) :
    s.released.getLsbD j = (s.kw.getLsbD j && !s.keys.getLsbD j) := by
  simp [State.released, h]

/-- The word that a Step fetches depends on `pc` and `MEM` alone (R63). -/
theorem State.fetchWord_congr {s t : State} (h1 : s.pc = t.pc) (h2 : s.mem = t.mem) : s.fetchWord = t.fetchWord := by
  simp [State.fetchWord, h1, h2]

/-- Everything a Step can do in Running: the fetch fault, or the word at `pc` on the advanced state (R6). -/
theorem stepOp_running {s : State} (h : s.status = .running) (r : Option Byte) :
    stepOp r s =
      if s.fetchable then executeWord s.fetchWord (s.sampleRnd r).advance
      else .next (s.enterFault .fetchOutOfRange s.pc.toNat) := by
  simp [stepOp, h]

/-- A Step whose word decodes runs that instruction on the advanced state (R6). -/
theorem stepOp_executes {s : State} {i : Instr} (hr : s.status = .running) (hf : s.fetchable = true)
    (hd : decodeWord s.fetchWord = some i) (r : Option Byte) : stepOp r s = exec i (s.sampleRnd r).advance := by
  rw [stepOp_running hr, if_pos hf, executeWord, hd]

/-- A Step in Faulted does nothing (R246). -/
theorem stepOp_faulted {s : State} {c : Cause} {n : Nat} (h : s.status = .faulted c n) (r : Option Byte) :
    stepOp r s = .next s := by
  simp [stepOp, h]

/-- Everything an instruction word can do (R96, R230). -/
theorem executeWord_cases {w : Word} {s t : State} (h : executeWord w s = .next t) :
    (∃ i, decodeWord w = some i ∧ exec i s = .next t) ∨ (decodeWord w = none ∧ t = s) := by
  unfold executeWord at h
  split at h
  · exact .inl ⟨_, by assumption, h⟩
  · refine .inr ⟨by assumption, ?_⟩
    simpa [execUnrecognized] using h.symm

/-- Everything Tick can do (R252): the two timers and the beep, in Running only. -/
theorem tickOp_eq (s : State) :
    tickOp s =
      { s with
        dt := if s.status = .running then countDown s.dt else s.dt
        st := if s.status = .running then countDown s.st else s.st
        env := { s.env with beeps := if s.status = .running ∧ s.st ≠ 0 then s.env.beeps + 1 else s.env.beeps } } := by
  unfold tickOp
  cases hs : s.status with
  | faulted c n => cases s; simp_all
  | running => simp [State.beepsNow, hs]

/-- The count-down saturates at 0 (R252). -/
theorem toNat_countDown (t : Byte) : (countDown t).toNat = t.toNat - 1 := by
  unfold countDown
  split
  · simp_all
  · rename_i h
    have : t.toNat ≠ 0 := fun e => h (BitVec.eq_of_toNat_eq (by simpa using e))
    have := t.isLt
    rw [BitVec.toNat_sub]
    simp
    omega

/-- Everything a Reset can do (R280, R282). -/
theorem resetOp_cases {p : List Byte} {q : Quirks} {s t : State} (h : resetOp p q s = .next t) :
    p.length ≤ 3584 ∧
      t = { State.reset with mem := loadedMemory s.mem.font p, quirks := q, env := { s.env with rnd := none } } := by
  unfold resetOp at h
  split at h
  · rename_i hp
    exact ⟨by simpa [programFits] using hp, by simpa using h.symm⟩
  · cases h

/-- An empty list of differences is canonical. -/
theorem wf_unlisted (f : Font) : (Memory.mk f []).wf := by
  simp [Memory.wf]

theorem wf_loadedMemory (f : Font) (p : List Byte) : (loadedMemory f p).wf :=
  Memory.wf_writeBytes p (wf_unlisted f) _

/-- Everything one step is: the environment's next operation, on the state whose schedule has moved on (R5, R9). -/
theorem step_eq (s : State) : step s = perform s.nextOp { s with env := s.env.moved } := rfl

/-- A step under a list that is not used up (R5, R9). -/
theorem step_cons {s : State} {op : Op} {rest : List Op} (h : s.env.ops = op :: rest) :
    step s = perform op { s with env := { s.env with ops := rest } } := by
  rw [step_eq, State.nextOp_cons h, Environment.moved_cons h]

end Sys2Proof.Machine
end

