-- ==== Sys2Proof/Laws/PerInstr.lean ====
section
/-! SUPPORT. Families of statements made per instruction: one lemma per constructor of `Instr`. -/

/-- Decoding the word of an instruction gives the instruction back, every operand at every value (R91, R95, R96). -/
def Sys2Proof.Laws.RoundTrip.Statement (i : Sys2Proof.Instr) : Prop :=
  Sys2Proof.decodeWord (Sys2Proof.encode i) = some i

namespace Sys2Proof.Laws.RoundTrip

theorem cls : Statement (.cls) := by
  rfl

theorem ret : Statement (.ret) := by
  rfl

theorem jp (nnn : Addr12) : Statement (.jp nnn) := by
  simp [Statement, encode, decodeWord]

theorem call (nnn : Addr12) : Statement (.call nnn) := by
  simp [Statement, encode, decodeWord]

theorem seImm (x : Reg) (nn : Byte) : Statement (.seImm x nn) := by
  simp [Statement, encode, decodeWord]

theorem sneImm (x : Reg) (nn : Byte) : Statement (.sneImm x nn) := by
  simp [Statement, encode, decodeWord]

theorem seReg (x y : Reg) : Statement (.seReg x y) := by
  simp [Statement, encode, decodeWord]

theorem ldImm (x : Reg) (nn : Byte) : Statement (.ldImm x nn) := by
  simp [Statement, encode, decodeWord]

theorem addImm (x : Reg) (nn : Byte) : Statement (.addImm x nn) := by
  simp [Statement, encode, decodeWord]

theorem ldReg (x y : Reg) : Statement (.ldReg x y) := by
  simp [Statement, encode, decodeWord, decodeAlu]

theorem orReg (x y : Reg) : Statement (.orReg x y) := by
  simp [Statement, encode, decodeWord, decodeAlu]

theorem andReg (x y : Reg) : Statement (.andReg x y) := by
  simp [Statement, encode, decodeWord, decodeAlu]

theorem xorReg (x y : Reg) : Statement (.xorReg x y) := by
  simp [Statement, encode, decodeWord, decodeAlu]

theorem addReg (x y : Reg) : Statement (.addReg x y) := by
  simp [Statement, encode, decodeWord, decodeAlu]

theorem subReg (x y : Reg) : Statement (.subReg x y) := by
  simp [Statement, encode, decodeWord, decodeAlu]

theorem shr (x y : Reg) : Statement (.shr x y) := by
  simp [Statement, encode, decodeWord, decodeAlu]

theorem subn (x y : Reg) : Statement (.subn x y) := by
  simp [Statement, encode, decodeWord, decodeAlu]

theorem shl (x y : Reg) : Statement (.shl x y) := by
  simp [Statement, encode, decodeWord, decodeAlu]

theorem sneReg (x y : Reg) : Statement (.sneReg x y) := by
  simp [Statement, encode, decodeWord]

theorem ldI (nnn : Addr12) : Statement (.ldI nnn) := by
  simp [Statement, encode, decodeWord]

theorem jpV0 (nnn : Addr12) : Statement (.jpV0 nnn) := by
  simp [Statement, encode, decodeWord]

theorem rnd (x : Reg) (nn : Byte) : Statement (.rnd x nn) := by
  simp [Statement, encode, decodeWord]

theorem drw (x y : Reg) (n : Nibble) : Statement (.drw x y n) := by
  simp [Statement, encode, decodeWord]

theorem skp (x : Reg) : Statement (.skp x) := by
  simp [Statement, encode, decodeWord, decodeKeySkip]

theorem sknp (x : Reg) : Statement (.sknp x) := by
  simp [Statement, encode, decodeWord, decodeKeySkip]

theorem ldVxDT (x : Reg) : Statement (.ldVxDT x) := by
  simp [Statement, encode, decodeWord, decodeMisc]

theorem ldVxK (x : Reg) : Statement (.ldVxK x) := by
  simp [Statement, encode, decodeWord, decodeMisc]

theorem ldDT (x : Reg) : Statement (.ldDT x) := by
  simp [Statement, encode, decodeWord, decodeMisc]

theorem ldST (x : Reg) : Statement (.ldST x) := by
  simp [Statement, encode, decodeWord, decodeMisc]

theorem addI (x : Reg) : Statement (.addI x) := by
  simp [Statement, encode, decodeWord, decodeMisc]

theorem ldF (x : Reg) : Statement (.ldF x) := by
  simp [Statement, encode, decodeWord, decodeMisc]

theorem ldB (x : Reg) : Statement (.ldB x) := by
  simp [Statement, encode, decodeWord, decodeMisc]

theorem storeRegs (x : Reg) : Statement (.storeRegs x) := by
  simp [Statement, encode, decodeWord, decodeMisc]

theorem loadRegs (x : Reg) : Statement (.loadRegs x) := by
  simp [Statement, encode, decodeWord, decodeMisc]

end Sys2Proof.Laws.RoundTrip
end

