-- ==== Sys2Proof/Laws/Runs.lean ====
section
/-! SUPPORT. The environment's schedule: nothing the core does depends on it, and a step takes its first operation. -/

namespace Sys2Proof.Machine

/-- A block load does not look at the schedule. -/
theorem State.writeBlock_withSchedule (bs : List Byte) (o l) : ∀ (s : State) (k : Nat),
    (s.withSchedule o l).writeBlock k bs = (s.writeBlock k bs).withSchedule o l := by
  induction bs with
  | nil => intro s k; rfl
  | cons b bs ih => intro s k; exact ih (s.writeV _ b) (k + 1)

/-- Nor does the block a store reads. -/
theorem State.readBlock_withSchedule (n : Nat) (o l) (s : State) : ∀ (k : Nat),
    (s.withSchedule o l).readBlock k n = s.readBlock k n := by
  induction n with
  | zero => intro k; rfl
  | succ n ih => intro k; simp only [State.readBlock, ih]; rfl

/-- The range check does not look at the schedule. -/
theorem State.checked_withSchedule {s t u : State} {n} {o l} (h : s.checked n t = .next u) :
    (s.withSchedule o l).checked n (t.withSchedule o l) = .next (u.withSchedule o l) := by
  rw [State.checked_eq] at h
  cases h
  by_cases hh : s.i.toNat + n > 4095
  · rw [State.checked_of_gt (by exact hh), if_pos hh]; rfl
  · rw [State.checked_of_le (by show s.i.toNat + n ≤ 4095; omega), if_neg hh]

/-- No instruction reads or writes the environment's schedule (R9, R250). -/
theorem exec_withSchedule (i : Instr) (s t : State) (o l) (h : exec i s = .next t) :
    exec i (s.withSchedule o l) = .next (t.withSchedule o l) := by
  cases i
  case ret =>
    unfold exec execRet at *; dsimp only at *
    split at h <;> cases h <;> simp_all [State.withSchedule, raise, State.pc0, State.enterFault]
  case call =>
    unfold exec execCall at *; dsimp only at *
    split at h <;> cases h <;> simp_all [State.withSchedule, raise, State.pc0, State.enterFault]
  case ldVxK =>
    unfold exec execLdVxK at *; dsimp only at *
    split at h <;> cases h <;> simp_all [State.withSchedule, State.released, State.writeV]
  case drw x y n =>
    unfold exec execDrw at *; dsimp only at *
    by_cases h0 : s.drawnRows y n = 0
    · rw [if_pos h0] at h; rw [if_pos (by exact h0)]; cases h; rfl
    · rw [if_neg h0] at h; rw [if_neg (by exact h0)]; exact State.checked_withSchedule h
  case ldB x => exact State.checked_withSchedule h
  case storeRegs x =>
    unfold exec execStoreRegs at *; dsimp only at *
    rw [State.advanceIndex_eq] at *; rw [State.readBlock_withSchedule]; exact State.checked_withSchedule h
  case loadRegs x =>
    unfold exec execLoadRegs at *; dsimp only at *
    rw [State.advanceIndex_eq] at *; rw [State.writeBlock_withSchedule]; exact State.checked_withSchedule h
  all_goals
    cases h
    first
    | rfl
    | unfold exec
      simp only [execSeImm, execSneImm, execSeReg, execSneReg, execSkp, execSknp, State.skipIf_eq]
      rfl

/-- No operation of the environment reads or writes the schedule of those to come (R9). -/
theorem perform_withSchedule (op : Op) (s t : State) (o l) (h : perform op s = .next t) :
    perform op (s.withSchedule o l) = .next (t.withSchedule o l) := by
  cases op with
  | step r =>
    simp only [perform] at *
    cases hs : s.status with
    | faulted c n => rw [stepOp_faulted hs] at h; cases h; rw [stepOp_faulted (c := c) (n := n)]; exact hs
    | running =>
      rw [stepOp_running hs] at h
      rw [stepOp_running (by exact hs)]
      by_cases hf : s.fetchable = true
      · rw [if_pos hf] at h; rw [if_pos (by exact hf)]
        rcases executeWord_cases h with ⟨i, hi, h⟩ | ⟨hn, rfl⟩
        · have := exec_withSchedule i _ t o l h
          unfold executeWord
          have e : (s.withSchedule o l).fetchWord = s.fetchWord := rfl
          rw [e, hi]; exact this
        · unfold executeWord
          have e : (s.withSchedule o l).fetchWord = s.fetchWord := rfl
          rw [e, hn]; rfl
      · rw [if_neg hf] at h; rw [if_neg (by exact hf)]; cases h; rfl
  | tick => cases h; simp only [perform, tickOp_eq]; rfl
  | setKeys k => cases h; rfl
  | reset p q =>
    simp only [perform] at *
    unfold resetOp at *
    split at h
    · rename_i hp; cases h; rw [if_pos hp]; rfl
    · cases h

/-- The first operation of a schedule is the next one. -/
theorem scheduled_zero (s : State) : s.env.scheduled 0 = s.nextOp := by
  unfold Environment.scheduled State.nextOp
  split
  · rename_i h
    obtain ⟨a, b, ho⟩ : ∃ a b, s.env.ops = a :: b := by
      exact List.exists_cons_of_length_pos h
    simp [ho]
  · rename_i h
    have : s.env.ops = [] := by simpa using h
    simp only [this]
    cases s.env.tail <;> simp

/-- A move takes the first operation off the schedule. -/
theorem Environment.scheduled_moved (e : Environment) (k : Nat) : e.moved.scheduled k = e.scheduled (k + 1) := by
  rcases e with ⟨ops, tail, a, b, c⟩
  cases ops with
  | cons x y =>
    simp only [Environment.scheduled, Environment.moved, List.length_cons, Nat.add_lt_add_iff_right,
      List.getElem_cons_succ, Nat.add_sub_add_right]
    rfl
  | nil => cases tail <;> simp [Environment.scheduled, Environment.moved]; congr 1; omega

/-- The first of several steps. -/
theorem run_of_step {s t : State} (n : Nat) (h : step s = .next t) :
    Sys2Proof.core.run (n + 1) s = Sys2Proof.core.run n t := by
  have h' : Sys2Proof.core.step s = .next t := h
  simp only [Host.Core.run, h']

end Sys2Proof.Machine
end

