-- ==== Sys2Proof/Tests/Slice0.lean ====
section
/-! SUPPORT. The author's own tests. Every expected value comes from spec/95_test_vectors.md (its numbers S, T) or from an
example of the rule named. -/

namespace Sys2Proof.Machine

/-! ## Ill-formed terms are refused -/

/-- R100: a word outside the opcode map. -/
theorem test_unrecognized_word_refused : recognized 0x5121 = false := by decide
/-- R282: one byte too many. -/
theorem test_long_program_refused : programFits (List.replicate 3585 0) = false := by
  rw [programFits, List.length_replicate]
  decide
/-- U5: the check of a program under proof refuses one with an unrecognized word. -/
theorem test_program_with_unrecognized_word_refused : programRecognized [0x60, 0x05, 0x9A, 0xB1] = false := by decide
/-- P1 passes all three checks. -/
theorem test_program_accepted :
    programFits [0x60, 0x05, 0x61, 0x00] = true ∧ programRecognized [0x60, 0x05, 0x61, 0x00] = true := by decide
/-- The canonical form of memory refuses unsorted cells, cells beyond memory and cells equal to the reset image. -/
theorem test_memory_not_sorted : ¬(Memory.mk defaultFont [(2, 1), (1, 1)]).wf := by decide
theorem test_memory_beyond_4095 : ¬(Memory.mk defaultFont [(4096, 1)]).wf := by decide
theorem test_memory_redundant_cell : ¬(Memory.mk defaultFont [(0x50, 0xF0)]).wf := by decide

/-! ## Decoding: every constructor by a word written out from its row of R95 -/

theorem test_decode_control_flow :
    decodeWord 0x00EE = some .ret ∧
    decodeWord 0x1234 = some (.jp 0x234) ∧
    decodeWord 0x2ABC = some (.call 0xABC) ∧
    decodeWord 0x3C42 = some (.seImm 0xC 0x42) ∧
    decodeWord 0x4307 = some (.sneImm 0x3 0x07) ∧
    decodeWord 0x5120 = some (.seReg 0x1 0x2) ∧
    decodeWord 0x9120 = some (.sneReg 0x1 0x2) ∧
    decodeWord 0xB210 = some (.jpV0 0x210) := by decide
theorem test_decode_registers :
    decodeWord 0x6A7F = some (.ldImm 0xA 0x7F) ∧
    decodeWord 0x70FF = some (.addImm 0x0 0xFF) ∧
    decodeWord 0x8120 = some (.ldReg 0x1 0x2) ∧
    decodeWord 0x8121 = some (.orReg 0x1 0x2) ∧
    decodeWord 0x8122 = some (.andReg 0x1 0x2) ∧
    decodeWord 0x8123 = some (.xorReg 0x1 0x2) ∧
    decodeWord 0x8AB4 = some (.addReg 0xA 0xB) ∧
    decodeWord 0x8125 = some (.subReg 0x1 0x2) ∧
    decodeWord 0x8126 = some (.shr 0x1 0x2) ∧
    decodeWord 0x8127 = some (.subn 0x1 0x2) ∧
    decodeWord 0x812E = some (.shl 0x1 0x2) ∧
    decodeWord 0xC00F = some (.rnd 0x0 0x0F) := by decide
theorem test_decode_index_memory :
    decodeWord 0xA20E = some (.ldI 0x20E) ∧
    decodeWord 0xF11E = some (.addI 0x1) ∧
    decodeWord 0xF029 = some (.ldF 0x0) ∧
    decodeWord 0xF933 = some (.ldB 0x9) ∧
    decodeWord 0xF255 = some (.storeRegs 0x2) ∧
    decodeWord 0xF265 = some (.loadRegs 0x2) := by decide
theorem test_decode_display :
    decodeWord 0x00E0 = some .cls ∧
    decodeWord 0xD4A7 = some (.drw 0x4 0xA 0x7) := by decide
theorem test_decode_keys_timers :
    decodeWord 0xE59E = some (.skp 0x5) ∧
    decodeWord 0xEEA1 = some (.sknp 0xE) ∧
    decodeWord 0xF107 = some (.ldVxDT 0x1) ∧
    decodeWord 0xF30A = some (.ldVxK 0x3) ∧
    decodeWord 0xF015 = some (.ldDT 0x0) ∧
    decodeWord 0xF018 = some (.ldST 0x0) := by decide
/-- Section 2.6 of the test vectors. -/
theorem test_decode_unrecognized :
    [0x0000, 0x0123, 0x00E1, 0x00EF, 0x5121, 0x512F, 0x8008, 0x800D, 0x800F, 0x9AB1, 0xE000, 0xE19F, 0xE1A0, 0xF000, 0xF0FF, 0xF175, 0xF11F].all (fun w => (decodeWord w).isNone) = true := by decide
/-- R63: bytes 12 34 are the word 1234, and the bytes after it stay. -/
theorem test_decode_bytes : decodeBytes [0x12, 0x34, 0x56] = .ok (.jp 0x234, [0x56]) := by decide
theorem test_decode_truncated : decodeBytes [0x12] = .error .truncated := by decide
theorem test_decode_rejects_by_name : decodeBytes [0x51, 0x21] = .error (.unrecognized 0x5121) := by decide
theorem test_decode_table_word : decodeTableWord 16 0x8AB4 = some (.addReg 0xA 0xB) := by decide

/-! ## One Step of each instruction -/

/-- `State.reset` with some registers written. -/
def withRegs (rs : List (Reg × Byte)) : State := rs.foldl (fun s p => s.writeV p.1 p.2) State.reset

/-- Run the word at `pc` for one step, and hold a check against the state before and the state after. -/
def runsTo (w : Nat) (s : State) (check : State → State → Bool) : Bool :=
  match step (s.withFetchWord 16 w) with
  | .next t => check (s.withFetchWord 16 w) t
  | _ => false

/-- T80 -/
theorem test_cls_blanks_and_keeps_vf :
    runsTo 0x00E0 (let s := withRegs [(15, 1)]; { s with disp := setCell (setCell s.disp 0 0 0xFF) 31 7 0x01 })
      (fun _ t => t.disp == blankDisplay && t.readV 15 == 1) = true := by decide
/-- T5 -/
theorem test_ret_pops :
    runsTo 0x00EE (let s := withRegs []; { s with sp := 1, stack := s.stack.set 0 0x0ABC })
      (fun _ t => t.pc == 0x0ABC && t.sp == 0) = true := by decide
/-- T6 -/
theorem test_ret_underflow :
    runsTo 0x00EE (withRegs [])
      (fun _ t => t.statusPort == some (3, 0x200) && t.pc == 0x200 && t.sp == 0) = true := by decide
/-- T3 -/
theorem test_jp_odd_target :
    runsTo 0x1201 (withRegs [])
      (fun _ t => t.pc == 0x201) = true := by decide
/-- T4 -/
theorem test_call_pushes :
    runsTo 0x2300 (withRegs [])
      (fun _ t => t.pc == 0x300 && t.sp == 1 && t.stack[0] == 0x202) = true := by decide
/-- T7 -/
theorem test_call_overflow :
    runsTo 0x2300 (let s := withRegs []; { s with sp := 16 })
      (fun s t => t.statusPort == some (2, 0x200) && t.pc == 0x200 && t.sp == 16 && t.stack == s.stack) = true := by decide
/-- T8 -/
theorem test_se_imm_skips :
    runsTo 0x3000 (withRegs [(0, 0)])
      (fun _ t => t.pc == 0x204) = true := by decide
/-- T9 -/
theorem test_se_imm_stays :
    runsTo 0x3000 (withRegs [(0, 1)])
      (fun _ t => t.pc == 0x202) = true := by decide
/-- T10 -/
theorem test_sne_imm_stays :
    runsTo 0x4307 (withRegs [(3, 7)])
      (fun _ t => t.pc == 0x202) = true := by decide
/-- T11 -/
theorem test_sne_imm_skips :
    runsTo 0x4308 (withRegs [(3, 7)])
      (fun _ t => t.pc == 0x204) = true := by decide
/-- T12 -/
theorem test_se_reg_skips :
    runsTo 0x5120 (withRegs [(1, 9), (2, 9)])
      (fun _ t => t.pc == 0x204) = true := by decide
/-- T13 -/
theorem test_se_reg_stays :
    runsTo 0x5120 (withRegs [(1, 9), (2, 8)])
      (fun _ t => t.pc == 0x202) = true := by decide
/-- T31 -/
theorem test_ld_imm_vf :
    runsTo 0x6F55 (withRegs [])
      (fun _ t => t.readV 15 == 0x55) = true := by decide
/-- T33 -/
theorem test_add_imm_wraps_without_flag :
    runsTo 0x7002 (withRegs [(0, 255), (15, 7)])
      (fun _ t => t.readV 0 == 1 && t.readV 15 == 7) = true := by decide
/-- T34 -/
theorem test_ld_reg :
    runsTo 0x8010 (withRegs [(0, 1), (1, 171), (15, 7)])
      (fun _ t => t.readV 0 == 0xAB && t.readV 1 == 0xAB && t.readV 15 == 7) = true := by decide
/-- T35 -/
theorem test_or_keeps_vf :
    runsTo 0x8011 (withRegs [(0, 240), (1, 15), (15, 7)])
      (fun _ t => t.readV 0 == 0xFF && t.readV 15 == 7) = true := by decide
/-- T36 -/
theorem test_and_keeps_vf :
    runsTo 0x8012 (withRegs [(0, 243), (1, 60), (15, 7)])
      (fun _ t => t.readV 0 == 0x30 && t.readV 15 == 7) = true := by decide
/-- T37 -/
theorem test_xor_keeps_vf :
    runsTo 0x8013 (withRegs [(0, 255), (1, 15), (15, 7)])
      (fun _ t => t.readV 0 == 0xF0 && t.readV 15 == 7) = true := by decide
/-- T40 -/
theorem test_add_255_has_no_carry :
    runsTo 0x8014 (withRegs [(0, 255), (1, 0)])
      (fun _ t => t.readV 0 == 0xFF && t.readV 15 == 0) = true := by decide
/-- T42 -/
theorem test_add_into_vf_leaves_the_carry :
    runsTo 0x8F14 (withRegs [(15, 200), (1, 100)])
      (fun _ t => t.readV 15 == 1) = true := by decide
/-- S2 -/
theorem test_sub_borrows :
    runsTo 0x8015 (withRegs [(0, 5), (1, 10)])
      (fun _ t => t.readV 0 == 251 && t.readV 15 == 0) = true := by decide
/-- T44 -/
theorem test_sub_equal_no_borrow :
    runsTo 0x8015 (withRegs [(0, 7), (1, 7)])
      (fun _ t => t.readV 0 == 0 && t.readV 15 == 1) = true := by decide
/-- S3 -/
theorem test_shr_ignores_vy :
    runsTo 0x8016 (withRegs [(0, 3), (1, 255)])
      (fun _ t => t.readV 0 == 1 && t.readV 15 == 1 && t.readV 1 == 0xFF) = true := by decide
/-- S3 -/
theorem test_shr_quirk_uses_vy :
    runsTo 0x8016 (let s := withRegs [(0, 3), (1, 255)]; { s with quirks := ⟨true, false, false⟩ })
      (fun _ t => t.readV 0 == 0x7F && t.readV 15 == 1 && t.readV 1 == 0xFF) = true := by decide
/-- T46 -/
theorem test_subn_no_borrow :
    runsTo 0x8017 (withRegs [(0, 5), (1, 10)])
      (fun _ t => t.readV 0 == 5 && t.readV 15 == 1) = true := by decide
/-- T47 -/
theorem test_subn_borrows :
    runsTo 0x8017 (withRegs [(0, 10), (1, 5)])
      (fun _ t => t.readV 0 == 0xFB && t.readV 15 == 0) = true := by decide
/-- T50 -/
theorem test_shl_shifts_out_bit_7 :
    runsTo 0x801E (withRegs [(0, 129), (1, 64)])
      (fun _ t => t.readV 0 == 2 && t.readV 15 == 1 && t.readV 1 == 0x40) = true := by decide
/-- T51 -/
theorem test_shl_quirk_uses_vy :
    runsTo 0x801E (let s := withRegs [(0, 129), (1, 64)]; { s with quirks := ⟨true, false, false⟩ })
      (fun _ t => t.readV 0 == 0x80 && t.readV 15 == 0) = true := by decide
/-- T15 -/
theorem test_sne_reg_skips :
    runsTo 0x9120 (withRegs [(1, 9), (2, 8)])
      (fun _ t => t.pc == 0x204) = true := by decide
/-- T17 -/
theorem test_sne_reg_same_register_stays :
    runsTo 0x9110 (withRegs [(1, 9)])
      (fun _ t => t.pc == 0x202) = true := by decide
/-- T60 -/
theorem test_ld_i :
    runsTo 0xAFFF (withRegs [])
      (fun _ t => t.i == 0x0FFF) = true := by decide
/-- T18 -/
theorem test_jp_v0_adds_v0 :
    runsTo 0xB210 (withRegs [(0, 4), (2, 16)])
      (fun _ t => t.pc == 0x214) = true := by decide
/-- T19 -/
theorem test_jp_v0_quirk_adds_vx :
    runsTo 0xB210 (let s := withRegs [(0, 4), (2, 16)]; { s with quirks := ⟨false, true, false⟩ })
      (fun _ t => t.pc == 0x220) = true := by decide
/-- T82 -/
theorem test_drw_clips_bottom_right :
    runsTo 0xD011 (let s := withRegs [(0, 63), (1, 31)]; { s with i := 0x300, mem := s.mem.write 0x300 0xFF })
      (fun _ t => t.disp == setCell blankDisplay 31 7 0x01 && t.readV 15 == 0) = true := by decide
/-- T88 -/
theorem test_drw_collides_in_right_cell :
    runsTo 0xD011 (let s := withRegs [(0, 4)]; { s with i := 0x300, mem := s.mem.write 0x300 0xFF, disp := setCell s.disp 0 1 0x10 })
      (fun _ t => t.disp == setCell (setCell blankDisplay 0 0 0x0F) 0 1 0xE0 && t.readV 15 == 1) = true := by decide
/-- T102 -/
theorem test_skp_big_key_is_not_held :
    runsTo 0xE09E (let s := withRegs [(0, 21)]; { s with keys := 0xFFFF })
      (fun _ t => t.pc == 0x202) = true := by decide
/-- T100 -/
theorem test_skp_held :
    runsTo 0xE09E (let s := withRegs [(0, 5)]; { s with keys := 0x0020 })
      (fun _ t => t.pc == 0x204) = true := by decide
/-- T103 -/
theorem test_sknp_held :
    runsTo 0xE0A1 (let s := withRegs [(0, 5)]; { s with keys := 0x0020 })
      (fun _ t => t.pc == 0x202) = true := by decide
/-- T105 -/
theorem test_sknp_big_key_is_not_held :
    runsTo 0xE0A1 (let s := withRegs [(0, 21)]; { s with keys := 0xFFFF })
      (fun _ t => t.pc == 0x204) = true := by decide
/-- T106 -/
theorem test_ld_vx_dt :
    runsTo 0xF107 (let s := withRegs []; { s with dt := 0x2A })
      (fun _ t => t.readV 1 == 0x2A && t.dt == 0x2A) = true := by decide
/-- S6, Step 1 -/
theorem test_key_wait_samples_a_held_key :
    runsTo 0xF30A (let s := withRegs []; { s with keys := 0x0002 })
      (fun _ t => t.pc == 0x200 && t.kw == 0x0002 && t.readV 3 == 0) = true := by decide
/-- T113, second Step -/
theorem test_key_wait_reports_the_lowest_release :
    runsTo 0xF30A (let s := withRegs []; { s with kw := 0x000A })
      (fun _ t => t.pc == 0x202 && t.kw == 0 && t.readV 3 == 1) = true := by decide
/-- T107 -/
theorem test_ld_dt :
    runsTo 0xF015 (withRegs [(0, 2)])
      (fun _ t => t.dt == 2 && t.st == 0) = true := by decide
/-- T108 -/
theorem test_ld_st :
    runsTo 0xF018 (withRegs [(0, 2)])
      (fun _ t => t.st == 2 && t.dt == 0 && t.env.beeps == 0) = true := by decide
/-- T62 -/
theorem test_add_i_4096_sets_flag :
    runsTo 0xF11E (let s := withRegs [(1, 16)]; { s with i := 0x0FF0 })
      (fun _ t => t.i == 0x1000 && t.readV 15 == 1) = true := by decide
/-- T63 -/
theorem test_add_i_wraps_at_16_bits :
    runsTo 0xF11E (let s := withRegs [(1, 2)]; { s with i := 0xFFFF })
      (fun _ t => t.i == 0x0001 && t.readV 15 == 1) = true := by decide
/-- T66 -/
theorem test_ld_f_low_nibble :
    runsTo 0xF029 (withRegs [(0, 58)])
      (fun _ t => t.i == 0x082) = true := by decide
/-- T69 -/
theorem test_ld_b_last_address :
    runsTo 0xF033 (let s := withRegs [(0, 7)]; { s with i := 0xFFD })
      (fun _ t => t.mem.readBytes 0xFFD 3 == [0, 0, 7] && t.i == 0xFFD) = true := by decide
/-- T70 -/
theorem test_ld_b_beyond_memory :
    runsTo 0xF033 (let s := withRegs [(0, 7)]; { s with i := 0xFFE })
      (fun s t => t.statusPort == some (4, 4096) && t.mem == s.mem && t.pc == 0x200) = true := by decide
/-- T72 -/
theorem test_store_regs_quirk :
    runsTo 0xF255 (let s := withRegs [(0, 1), (1, 2), (2, 3)]; { s with i := 0x400, quirks := ⟨false, false, true⟩ })
      (fun _ t => t.mem.readBytes 0x400 4 == [1, 2, 3, 0] && t.i == 0x403) = true := by decide
/-- T74 -/
theorem test_store_regs_to_the_last_byte :
    runsTo 0xF155 (let s := withRegs [(0, 1), (1, 2)]; { s with i := 0xFFE, quirks := ⟨false, false, true⟩ })
      (fun _ t => t.mem.readBytes 0xFFE 2 == [1, 2] && t.i == 0x1000 && t.status == .running) = true := by decide
/-- R177 example -/
theorem test_load_regs :
    runsTo 0xF265 (let s := withRegs [(3, 9)]; { s with i := 0x300, mem := s.mem.writeBytes 0x300 [2, 3, 4, 5] })
      (fun _ t => t.readBlock 0 4 == [2, 3, 4, 9] && t.i == 0x300) = true := by decide
/-- T76 -/
theorem test_load_regs_one :
    runsTo 0xF065 (let s := withRegs []; { s with i := 0x400, mem := s.mem.writeBytes 0x400 [0x10, 0x11] })
      (fun _ t => t.readBlock 0 2 == [0x10, 0]) = true := by decide
/-- T53: `rnd = 0xA7` given by the environment's Step. -/
theorem test_rnd_masks_the_given_byte :
    (match step { (State.reset.withFetchWord 16 0xC00F) with env := { State.reset.env with ops := [.step (some 0xA7)] } } with
      | .next t => t.readV 0 == 0x07 && t.pc == 0x202 && t.env.draws == 1
      | _ => false) = true := by decide
/-- T55: with `NN = 0` the free byte does not matter. -/
theorem test_rnd_free_byte_masked_to_zero : ∃ t, exec (.rnd 0 0) State.reset = .next t ∧ t.readV 0 = 0 :=
  ⟨_, rfl, by simp [State.readV, State.writeV]⟩

/-! ## The environment's operations -/

/-- A state whose environment does one operation next. -/
def withOp (op : Op) (s : State) : State := { s with env := { s.env with ops := [op] } }

/-- Hold a check against the state after one step. -/
def stepsTo (s : State) (check : State → Bool) : Bool :=
  match step s with
  | .next t => check t
  | _ => false

/-- R9: a schedule that is left free goes on for ever, whatever its operations are. -/
theorem test_free_tail :
    (State.reset.withSchedule [] (.free 3)).nextOp = Config.freeOp 3 ∧
      (State.reset.withSchedule [] (.free 3)).env.moved.tail = .free 4 := ⟨rfl, rfl⟩
/-- T122. -/
theorem test_tick_counts_down_and_beeps :
    stepsTo (withOp .tick { State.reset with dt := 255, st := 255 })
      (fun t => t.dt == 254 && t.st == 254 && t.env.beeps == 1 && t.env.ops == []) = true := by decide
/-- S8: a timer at 0 stays at 0 and does not beep. -/
theorem test_tick_at_zero :
    stepsTo (withOp .tick { State.reset with dt := 1 })
      (fun t => t.dt == 0 && t.st == 0 && t.env.beeps == 0) = true := by decide
/-- T123. -/
theorem test_tick_in_faulted :
    stepsTo (withOp .tick { State.reset with dt := 5, st := 5, status := .faulted .stackOverflow 0x200 })
      (fun t => t.dt == 5 && t.st == 5 && t.env.beeps == 0) = true := by decide
/-- T134. -/
theorem test_setKeys_in_faulted :
    stepsTo (withOp (.setKeys 0x8001) { State.reset with status := .faulted .stackOverflow 0x200 })
      (fun t => t.keys == 0x8001 && t.status == .faulted .stackOverflow 0x200) = true := by decide
/-- T135: Reset leaves Faulted and loads the program at 0x200 (R70). -/
theorem test_reset_leaves_faulted :
    stepsTo (withOp (.reset [0x12, 0x34] ⟨true, false, true⟩)
        { State.reset with pc := 0xFFF, status := .faulted .fetchOutOfRange 0xFFF })
      (fun t => t.status == .running && t.pc == 0x200 && t.fetchWord == 0x1234 && t.quirks == ⟨true, false, true⟩)
      = true := by decide
/-- R282: one byte too many. -/
theorem test_reset_refuses_a_long_program :
    resetOp (List.replicate 3585 0) {} State.reset = .refused (.programTooLong 3585) := by
  rw [resetOp, test_long_program_refused, List.length_replicate]
  rfl
/-- T130, T131: the last fetchable address. -/
theorem test_fetch_at_4094 :
    stepsTo { State.reset with pc := 0xFFE } (fun t => t.pc == 0x1000 && t.status == .running) = true := by decide
theorem test_fetch_at_4095 :
    stepsTo { State.reset with pc := 0xFFF } (fun t => t.pc == 0xFFF && t.statusPort == some (1, 0xFFF)) = true := by
  decide
/-- Section 2.6: an unrecognized word changes `pc` alone. -/
theorem test_unrecognized_word_is_a_no_op :
    (let s := State.withFetchWord { withRegs [(0, 1), (1, 2), (15, 3)] with i := 0x123, keys := 0xFFFF } 16 0x5121;
      stepsTo s (fun t => t == { s with pc := 0x202, env := State.reset.env })) = true := by decide
/-- P7: the planted word is fetched by the next Step (Steps 4 and 5). -/
theorem test_planted_code_runs :
    (match Host.Core.run Sys2Proof.core 2
        (State.withFetchWord { withRegs [(0, 0x62), (1, 0x2A)] with pc := 0x206, i := 0x208 } 16 0xF155) with
      | .next t => t.readV 2 == 0x2A && t.pc == 0x20A
      | _ => false) = true := by decide
/-- R71: the defaults of the font, at both ends of the region. -/
theorem test_default_font :
    State.reset.mem.readBytes 0x050 5 = [0xF0, 0x90, 0x90, 0x90, 0xF0] ∧
      State.reset.mem.readBytes 0x09B 6 = [0xF0, 0x80, 0xF0, 0x80, 0x80, 0x00] := by decide

/-! ## Witnesses: a concrete state and operands that meet the hypotheses of each statement together -/

/-- The state with the word of `LD V3, K` at its `pc`. -/
def waiting : State := State.reset.withFetchWord 16 0xF30A

theorem witness_EncodeInvertsDecode : decodeWord 0x8AB4 = some (.addReg 0xA 0xB) := by decide

/-- The word of `LD V3, K` at `pc`, with a given byte, and with the list used up before a tail of Steps. -/
theorem witness_StepRunsTheDecodedInstruction :
    (withOp (.step (some 7)) waiting).nextOp = .step (some 7) ∧
      (withOp (.step (some 7)) waiting).env.ops = [.step (some 7)] ∧
      (waiting.withSchedule [] .steps).env.ops = [] ∧ (waiting.withSchedule [] .steps).env.tail = .steps ∧
      waiting.status = .running ∧ waiting.pc.toNat + 2 ≤ 4096 ∧
      decodeWord (wordOfBytes (waiting.mem.read waiting.pc.toNat) (waiting.mem.read (waiting.pc.toNat + 1))) =
        some (.ldVxK 3) := by decide

/-- Both sides of the boundary: 4094 and 4095. -/
theorem witness_FetchFaultsBeyondMemory :
    ({ State.reset with pc := 4094 } : State).status = .running ∧ ¬((4094 : Word).toNat + 2 > 4096) ∧
      ({ State.reset with pc := 4095 } : State).status = .running ∧ (4095 : Word).toNat + 2 > 4096 := by decide

theorem witness_UnrecognizedWordsAreNoOps :
    State.reset.status = .running ∧ State.reset.pc.toNat + 2 ≤ 4096 ∧
      ∀ row ∈ opcodeRows, State.reset.fetchWord &&& row.mask ≠ row.value := by decide

/-- At the top of memory: the store ends at 4095. -/
theorem witness_StoredCodeIsFetchedNext :
    ({ State.reset with pc := 4094, i := 4094 } : State).mem.wf ∧ (1 : Nat) ≤ (1 : Reg).toNat ∧
      ({ State.reset with pc := 4094, i := 4094 } : State).i.toNat + (1 : Reg).toNat ≤ 4095 := by decide

theorem witness_FaultConditions_overflow :
    ∃ t, exec (.call 0x300) { State.reset with sp := 16 } = .next t ∧ t.status = .faulted .stackOverflow 0x1FE :=
  ⟨_, rfl, by decide⟩

theorem witness_FaultConditions_underflow :
    ∃ t, exec .ret State.reset = .next t ∧ t.status = .faulted .stackUnderflow 0x1FE := ⟨_, rfl, by decide⟩

/-- The first offset that leaves memory, and the last that does not. -/
theorem witness_FaultConditions_data :
    (∃ t, exec (.ldB 0) { State.reset with i := 4094 } = .next t ∧ t.status = .faulted .dataAddressOutOfRange 4096) ∧
      ∃ t, exec (.ldB 0) { State.reset with i := 4093 } = .next t ∧ t.status = .running :=
  ⟨⟨_, rfl, by decide⟩, ⟨_, rfl, by decide⟩⟩

theorem witness_FaultsArePrecise :
    ∃ t, State.reset.status = .running ∧ step (State.reset.withFetchWord 16 0x00EE) = .next t ∧
      t.status = .faulted .stackUnderflow 0x200 := ⟨_, rfl, rfl, by decide⟩

/-- A faulted machine, and one whose environment resets it. -/
theorem witness_FaultedStopsForGood :
    (∃ t, ({ State.reset with status := .faulted .stackOverflow 0x200 } : State).status = .faulted .stackOverflow 0x200 ∧
      step { State.reset with status := .faulted .stackOverflow 0x200 } = .next t) ∧
    ∃ t, step (withOp (.reset [] {}) { State.reset with status := .faulted .stackOverflow 0x200 }) = .next t ∧
      t.status = .running := ⟨⟨_, rfl, rfl⟩, ⟨_, rfl, rfl⟩⟩

theorem witness_OnlyAnOversizedResetIsRefused :
    step (withOp (.reset (List.replicate 3585 0) {}) State.reset) = .refused (.programTooLong 3585) :=
  test_reset_refuses_a_long_program

theorem witness_SetKeysWritesKeysOnly : (withOp (.setKeys 1) State.reset).nextOp = .setKeys 1 := by decide

/-- A Tick in each status, and one that finds `ST` at its boundary. -/
theorem witness_TickCountsDown :
    (withOp .tick { State.reset with st := 1 }).nextOp = .tick ∧
      (withOp .tick { State.reset with st := 1 }).status = .running ∧
      (withOp .tick { State.reset with status := .faulted .stackOverflow 0 }).nextOp = .tick := by decide

theorem witness_TimersCountTicks : ({ State.reset with dt := 2, st := 3 } : State).status = .running := by decide

/-- Both sides of the boundary: 3584 and 3585 bytes. -/
theorem witness_ResetEstablishesTheResetState :
    (List.replicate 3584 (0 : Byte)).length ≤ 3584 ∧ ¬(List.replicate 3585 (0 : Byte)).length ≤ 3584 := by
  rw [List.length_replicate, List.length_replicate]
  decide

theorem witness_FirstFetchIsTheProgramsFirstWord : (List.replicate 3582 (0 : Byte)).length ≤ 3582 := by
  rw [List.length_replicate]

/-- The 16th nested call. -/
theorem witness_ReturnResumesAfterTheCall : ({ State.reset with sp := 15 } : State).sp.val < 16 := by decide

/-- A full and an empty stack, and one that is neither. -/
theorem witness_CallPushesTheAdvancedPc_ReturnPopsPc :
    ({ State.reset with sp := 16 } : State).sp.val = 16 ∧ State.reset.sp.val = 0 ∧
      ({ State.reset with sp := 15 } : State).sp.val ≠ 16 ∧ ({ State.reset with sp := 15 } : State).sp.val ≠ 0 := by
  decide

theorem witness_ShiftsSetTheBitShiftedOut :
    128 = (if (withRegs [(3, 128)]).quirks.shiftUsesVY = true then ((withRegs [(3, 128)]).readV 4).toNat
      else ((withRegs [(3, 128)]).readV 3).toNat) := by decide

theorem witness_RandomByteIsMasked :
    ({ State.reset with env := { State.reset.env with rnd := some 7 } } : State).env.rnd = some 7 ∧
      State.reset.env.rnd = none := by decide

/-- The boundaries of the stores: 4093 and 4094 for three bytes, 4095 and 4096 for one. -/
theorem witness_DecimalDigits_BlockStore_BlockLoad :
    State.reset.mem.wf ∧ ¬((4093 : Word).toNat + 2 > 4095) ∧ (4094 : Word).toNat + 2 > 4095 ∧
      ¬((4095 : Word).toNat + (0 : Reg).toNat > 4095) ∧ (4096 : Word).toNat + (0 : Reg).toNat > 4095 ∧
      ¬((4080 : Word).toNat + (15 : Reg).toNat > 4095) := by decide

theorem witness_BlockLoadInvertsBlockStore :
    State.reset.mem.wf ∧ State.reset.quirks.incrementIndex = false ∧
      ({ State.reset with i := 4080 } : State).i.toNat + (15 : Reg).toNat ≤ 4095 := by decide

/-- Two ways to the same memory. -/
theorem witness_CanonicalMemoriesThatReadAlikeAreEqual :
    (State.reset.mem.writeBytes 0x300 [1, 2]).wf ∧ ((State.reset.mem.write 0x301 2).write 0x300 1).wf ∧
      State.reset.mem.writeBytes 0x300 [1, 2] = (State.reset.mem.write 0x301 2).write 0x300 1 := by decide

/-- The clauses of the draw: in range with and without a hit, and the first address out of range (T86, T87). -/
theorem witness_DrawTogglesTheSpritesPixels :
    (∃ t, exec (.drw 0 1 1) { State.reset with i := 0x50 } = .next t ∧ t.status = .running ∧ t.readV 15 = 0) ∧
    (∃ t, exec (.drw 0 1 1) { State.reset with i := 0x50, disp := setCell State.reset.disp 0 0 0x80 } = .next t ∧
      t.readV 15 = 1) ∧
    (∃ t, exec (.drw 0 1 2) { State.reset with i := 0xFFF } = .next t ∧
      t.status = .faulted .dataAddressOutOfRange 4096) ∧
    ∃ t, exec (.drw 0 1 2) { withRegs [(1, 31)] with i := 0xFFF } = .next t ∧ t.status = .running :=
  ⟨⟨_, rfl, by decide, by decide⟩, ⟨_, rfl, by decide⟩, ⟨_, rfl, by decide⟩, ⟨_, rfl, by decide⟩⟩

theorem witness_DrawingTwiceRestoresTheDisplay :
    (0 : Reg) ≠ 15 ∧ (1 : Reg) ≠ 15 ∧
      ({ State.reset with i := 4081 } : State).i.toNat + min (15 : Nibble).toNat
        (32 - (State.reset.readV 1).toNat % 32) ≤ 4096 := by decide

/-- No release; a release of the highest key; two releases, of which the lower counts. -/
theorem witness_KeyWaitEndsOnARelease :
    (∀ k, k < 16 → (0x8001 : Word).getLsbD k = true → (0xFFFF : Word).getLsbD k = true) ∧
    ((0x8000 : Word).getLsbD 15 = true ∧ (0x7FFF : Word).getLsbD 15 = false ∧
      ∀ j, j < 15 → (0x8000 : Word).getLsbD j = true → (0x7FFF : Word).getLsbD j = true) ∧
    ((0x000A : Word).getLsbD 1 = true ∧ (0x0000 : Word).getLsbD 1 = false ∧
      ∀ j, j < 1 → (0x000A : Word).getLsbD j = true → (0x0000 : Word).getLsbD j = true) := by decide

/-- A wait that begins with no key held, and one that has sampled the keys held, under Steps and Ticks. -/
theorem witness_KeyWaitSpinsWhileKeysAreConstant :
    (∀ op ∈ [Op.step none, .tick, .step (some 7)], op = .tick ∨ ∃ r, op = .step r) ∧
    (waiting.withSchedule [.step none, .tick, .step (some 7)] .steps).env.ops =
      [.step none, .tick, .step (some 7)] ++ [] ∧
    waiting.status = .running ∧ waiting.pc.toNat + 2 ≤ 4096 ∧ decodeWord waiting.fetchWord = some (.ldVxK 3) ∧
    waiting.kw = 0 ∧
    ({ waiting with kw := 0x8001, keys := 0x8001 } : State).kw = ({ waiting with kw := 0x8001, keys := 0x8001 } : State).keys
    := ⟨by simp, rfl, by decide, by decide, by decide, by decide, rfl⟩

/-- An endless schedule, its run from `State.reset`, and a list that begins as it does. -/
theorem witness_EveryScheduleIsARun :
    Execution (fun k => if k = 0 then .tick else .setKeys 5)
      (fun k => if k = 0 then State.reset else { State.reset with keys := if k = 1 then 0 else 5 }) ∧
    ∀ k, k < 2 → (State.reset.withSchedule [.tick, .setKeys 5] .steps).env.scheduled k =
      (if k = 0 then Op.tick else .setKeys 5) := by
  refine ⟨?_, by decide⟩
  intro k
  match k with
  | 0 => rfl
  | 1 => rfl
  | k + 2 => rfl

theorem witness_FlagOutcomes :
    ∃ t, exec (.addReg 0 1) (withRegs [(0, 255), (1, 1)]) = .next t ∧ t.status = .running ∧
      flagOutcome (.addReg 0 1) (withRegs [(0, 255), (1, 1)]) = some true := ⟨_, rfl, by decide, by decide⟩

/-- A register that is not named, and `VF` under an instruction without a flag outcome. -/
theorem witness_RegistersChangeOnlyAsNamed :
    (∃ t, exec (.addReg 0 1) State.reset = .next t) ∧ namesDest (.addReg 0 1) 2 = false ∧ (2 : Reg) ≠ 15 ∧
      (∃ t, exec (.addImm 0 1) State.reset = .next t) ∧ namesDest (.addImm 0 1) 15 = false ∧
      flagOutcome (.addImm 0 1) State.reset = none := ⟨⟨_, rfl⟩, by decide, by decide, ⟨_, rfl⟩, by decide, by decide⟩

/-- An instruction that is no writer of anything but `V`; the writers of `SP` and of `I` that are so in part only. -/
theorem witness_StateIsWrittenOnlyByItsWriters :
    (∃ t, exec (.orReg 0 1) State.reset = .next t ∧ writesSP (.orReg 0 1) = false ∧
      writesStack (.orReg 0 1) = false ∧ writesMem (.orReg 0 1) = false ∧ writesDisp (.orReg 0 1) = false ∧
      writesI (.orReg 0 1) State.reset = false ∧ mayRaise (.orReg 0 1) State.reset = false ∧
      transfersControl (.orReg 0 1) = false ∧ State.reset.status = .running ∧ t.status = .running) ∧
    ((∃ t, exec .ret { State.reset with sp := 1 } = .next t) ∧ writesStack .ret = false) ∧
    ((∃ t, exec (.storeRegs 1) State.reset = .next t) ∧ writesI (.storeRegs 1) State.reset = false) ∧
    (∃ t, exec (.drw 0 1 0) State.reset = .next t) ∧ mayRaise (.drw 0 1 0) State.reset = false :=
  ⟨⟨_, rfl, by decide, by decide, by decide, by decide, by decide, by decide, by decide, by decide, by decide⟩,
    ⟨⟨_, rfl⟩, by decide⟩, ⟨⟨_, rfl⟩, by decide⟩, ⟨_, rfl⟩, by decide⟩

/-- Each input changes under its own operation. -/
theorem witness_InputsBelongToTheEnvironment :
    (∃ t, step (withOp (.setKeys 5) State.reset) = .next t ∧ t.keys ≠ State.reset.keys) ∧
    (∃ t, step (withOp (.reset [] ⟨true, true, true⟩) State.reset) = .next t ∧ t.quirks ≠ State.reset.quirks) ∧
    ∃ t, step (withOp (.reset [] {}) { State.reset with keys := 5 }) = .next t ∧ t.keys ≠ 5 :=
  ⟨⟨_, rfl, by decide⟩, ⟨_, rfl, by decide⟩, ⟨_, rfl, by decide⟩⟩

/-- A wait with a latched key: it meets the three invariants, and it steps. -/
theorem witness_invariants_hold_in_a_wait :
    ∃ t, ({ waiting with kw := 2, keys := 2 } : State).mem.wf ∧ PcBounded { waiting with kw := 2, keys := 2 } ∧
      WaitLatched { waiting with kw := 2, keys := 2 } ∧ step { waiting with kw := 2, keys := 2 } = .next t :=
  ⟨_, by decide, ⟨by decide, by decide⟩, fun _ => ⟨by decide, 3, by decide⟩, rfl⟩

theorem witness_ReachableStatesMeetTheInvariants : Reachable State.reset :=
  .reset State.reset State.reset [] {} rfl

end Sys2Proof.Machine
end

namespace Sys2Proof.Machine

/-- R5, R8: a step whose operation is `SetKeys(k)` is `setKeysOp` on the state whose schedule has moved on, whatever the
status. -/
theorem step_setKeys {s : State} {k : Word} (h : s.nextOp = .setKeys k) :
    step s = .next (setKeysOp k { s with env := s.env.moved }) := by
  rw [step_eq, h, perform]

/-- Settles O16: the step is `setKeysOp`, which writes `KEYS` alone. -/
theorem setKeysWritesKeysOnly : Obligations.SetKeysWritesKeysOnly := by
  unfold Obligations.SetKeysWritesKeysOnly
  intro s k hop
  rw [step_setKeys hop, setKeysOp]

end Sys2Proof.Machine

namespace Sys2Proof.Machine

/-- Settles O6: the bytes of a word at `pc` and `pc + 1` are its value in base 256, high byte first. -/
theorem fetchIsBigEndian : Obligations.FetchIsBigEndian := by
  unfold Obligations.FetchIsBigEndian
  intro s
  rw [State.fetchWord, toNat_wordOfBytes]

/-- Settles O8, by the two sides of the boundary: beyond it a Step in Running is the fetch fault on the state as it
was, up to it the word at `pc0` on the advanced state. -/
theorem fetchFaultsBeyondMemory : Obligations.FetchFaultsBeyondMemory := by
  unfold Obligations.FetchFaultsBeyondMemory
  intro r s hrun
  rw [stepOp_running hrun]
  by_cases hbeyond : s.pc.toNat + 2 > 4096
  · have hnofetch : ¬s.fetchable = true := mt s.fetchable_iff.1 (Nat.not_le.2 hbeyond)
    rw [if_pos hbeyond, if_neg hnofetch]
    rfl
  · have hfetch : s.fetchable = true := s.fetchable_iff.2 (Nat.not_lt.1 hbeyond)
    rw [if_neg hbeyond, if_pos hfetch]
    rfl

end Sys2Proof.Machine

namespace Sys2Proof.Machine

/-! ### Jump and register skips (R121, R123 to R127) -/

/-- R121: `1NNN` is one record update of `pc`. -/
theorem exec_jp (nnn : Addr12) (s : State) : exec (.jp nnn) s = .next { s with pc := zextAddr nnn } := rfl

/-- R123, R125: a skip on equal bytes, with the comparison on their values. -/
theorem State.skipIf_beq (s : State) (a b : Byte) :
    s.skipIf (a == b) = { s with pc := if a.toNat = b.toNat then s.pc + 2 else s.pc } := by
  simp only [State.skipIf_eq, beq_iff_eq, BitVec.toNat_inj]

/-- R124, R126: a skip on unequal bytes stays exactly when their values are equal. -/
theorem State.skipIf_bne (s : State) (a b : Byte) :
    s.skipIf (a != b) = { s with pc := if a.toNat = b.toNat then s.pc else s.pc + 2 } := by
  simp only [State.skipIf_eq, bne_iff_ne, ne_eq, ite_not, BitVec.toNat_inj]

theorem exec_seImm (x : Reg) (nn : Byte) (s : State) :
    exec (.seImm x nn) s = .next (s.skipIf (s.readV x == nn)) := rfl

theorem exec_sneImm (x : Reg) (nn : Byte) (s : State) :
    exec (.sneImm x nn) s = .next (s.skipIf (s.readV x != nn)) := rfl

theorem exec_seReg (x y : Reg) (s : State) :
    exec (.seReg x y) s = .next (s.skipIf (s.readV x == s.readV y)) := rfl

theorem exec_sneReg (x y : Reg) (s : State) :
    exec (.sneReg x y) s = .next (s.skipIf (s.readV x != s.readV y)) := rfl

/-- Settles O22: the jump writes `pc` alone, and zero extension keeps the value of `NNN`. -/
theorem jumpReplacesPc : Obligations.JumpReplacesPc := by
  unfold Obligations.JumpReplacesPc
  intro nnn s
  exact ⟨_, exec_jp nnn s, rfl, toNat_zextAddr nnn⟩

/-- Settles O26: `3XNN` is a skip on equal bytes. -/
theorem skipIfEqualImmediate : Obligations.SkipIfEqualImmediate := by
  unfold Obligations.SkipIfEqualImmediate
  intro x nn s
  rw [exec_seImm, State.skipIf_beq]

/-- Settles O27: `4XNN` is a skip on unequal bytes. -/
theorem skipIfNotEqualImmediate : Obligations.SkipIfNotEqualImmediate := by
  unfold Obligations.SkipIfNotEqualImmediate
  intro x nn s
  rw [exec_sneImm, State.skipIf_bne]

/-- Settles O28: `5XY0` is a skip on equal bytes, `9XY0` one on unequal bytes. -/
theorem skipOnRegisters : Obligations.SkipOnRegisters := by
  unfold Obligations.SkipOnRegisters
  intro x y s
  constructor
  · rw [exec_seReg, State.skipIf_beq]
  · rw [exec_sneReg, State.skipIf_bne]

end Sys2Proof.Machine

namespace Sys2Proof.Machine

/-! ### Immediate load and add, move and logic (R141 to R146) -/

theorem exec_ldImm (x : Reg) (nn : Byte) (s : State) : exec (.ldImm x nn) s = .next (s.writeV x nn) := rfl

theorem exec_addImm (x : Reg) (nn : Byte) (s : State) :
    exec (.addImm x nn) s = .next (s.writeV x (s.readV x + nn)) := rfl

theorem exec_ldReg (x y : Reg) (s : State) : exec (.ldReg x y) s = .next (s.writeV x (s.readV y)) := rfl

theorem exec_orReg (x y : Reg) (s : State) :
    exec (.orReg x y) s = .next (s.writeV x (s.readV x ||| s.readV y)) := rfl

theorem exec_andReg (x y : Reg) (s : State) :
    exec (.andReg x y) s = .next (s.writeV x (s.readV x &&& s.readV y)) := rfl

theorem exec_xorReg (x y : Reg) (s : State) :
    exec (.xorReg x y) s = .next (s.writeV x (s.readV x ^^^ s.readV y)) := rfl

/-- Read after write of one register, by value. -/
theorem State.toNat_readV_writeV (s : State) (x r : Reg) (b : Byte) :
    ((s.writeV x b).readV r).toNat = if r = x then b.toNat else (s.readV r).toNat := by
  rw [State.readV_writeV, apply_ite BitVec.toNat]

/-- Read after write of one register, bit by bit. -/
theorem State.getLsbD_readV_writeV (s : State) (x r : Reg) (b : Byte) (k : Nat) :
    ((s.writeV x b).readV r).getLsbD k = if r = x then b.getLsbD k else (s.readV r).getLsbD k := by
  rw [State.readV_writeV, apply_ite (BitVec.getLsbD · k)]

/-- Settles O30: each form is one register write, of `NN` and of a sum whose value is taken modulo 256. -/
theorem immediateLoadAndAdd : Obligations.ImmediateLoadAndAdd := by
  unfold Obligations.ImmediateLoadAndAdd
  intro x nn s
  constructor
  · exact ⟨_, exec_ldImm x nn s, s.writeV_eq x _, fun r => s.readV_writeV x r nn⟩
  · refine ⟨_, exec_addImm x nn s, s.writeV_eq x _, fun r => ?_⟩
    rw [State.toNat_readV_writeV, BitVec.toNat_add]

/-- Settles O31: each form is one register write, and each logic operation acts on every bit by itself. -/
theorem moveAndLogic : Obligations.MoveAndLogic := by
  unfold Obligations.MoveAndLogic
  intro x y s
  refine ⟨?move, ?or, ?and, ?xor⟩
  case move => exact ⟨_, exec_ldReg x y s, s.writeV_eq x _, fun r => s.readV_writeV x r _⟩
  case or =>
    refine ⟨_, exec_orReg x y s, s.writeV_eq x _, fun r k => ?_⟩
    rw [State.getLsbD_readV_writeV, BitVec.getLsbD_or]
  case and =>
    refine ⟨_, exec_andReg x y s, s.writeV_eq x _, fun r k => ?_⟩
    rw [State.getLsbD_readV_writeV, BitVec.getLsbD_and]
  case xor =>
    refine ⟨_, exec_xorReg x y s, s.writeV_eq x _, fun r k => ?_⟩
    rw [State.getLsbD_readV_writeV, BitVec.getLsbD_xor]

end Sys2Proof.Machine

namespace Sys2Proof.Machine

/-! ### Writes of the index register (R170, R172) -/

/-- R170: `ANNN` is one record update of `i`. -/
theorem exec_ldI (nnn : Addr12) (s : State) : exec (.ldI nnn) s = .next { s with i := zextAddr nnn } := rfl

/-- R172: `FX29` is one record update of `i`. -/
theorem exec_ldF (x : Reg) (s : State) :
    exec (.ldF x) s = .next { s with i := s.glyphAddress (s.readV x) } := rfl

/-- R172: a glyph starts in `FONT_BASE .. FONT_BASE + 75`, since a nibble is at most 15. -/
theorem State.glyphAddress_range (s : State) (b : Byte) :
    s.mem.font.base.val ≤ (s.glyphAddress b).toNat ∧
      (s.glyphAddress b).toNat ≤ s.mem.font.base.val + 75 := by
  have hnibble : b.toNat % 16 < 16 := Nat.mod_lt _ (by decide)
  rw [State.toNat_glyphAddress]
  omega

/-- Settles O36: the load writes `i` alone, and zero extension keeps the value of `NNN`. -/
theorem loadIndex : Obligations.LoadIndex := by
  unfold Obligations.LoadIndex
  intro nnn s
  exact ⟨_, exec_ldI nnn s, rfl, toNat_zextAddr nnn⟩

/-- Settles O38: `FX29` writes `i` alone, with the address of the glyph of the low nibble of `V[X]`. -/
theorem fontAddressOfLowNibble : Obligations.FontAddressOfLowNibble := by
  unfold Obligations.FontAddressOfLowNibble
  intro x s
  exact ⟨_, exec_ldF x s, rfl, s.toNat_glyphAddress _, s.glyphAddress_range _⟩

end Sys2Proof.Machine

namespace Sys2Proof.Machine

/-! ### Clear (R191) -/

/-- R191: `00E0` is one record update of `disp`. -/
theorem exec_cls (s : State) : exec .cls s = .next { s with disp := blankDisplay } := rfl

/-- Settles O44: clearing writes `disp` alone, with the display whose cells all read 0. -/
theorem clearBlanksTheDisplay : Obligations.ClearBlanksTheDisplay := by
  unfold Obligations.ClearBlanksTheDisplay
  intro s
  exact ⟨_, exec_cls s, rfl, cellAt_blankDisplay⟩

end Sys2Proof.Machine

namespace Sys2Proof.Machine

/-! ### Timer access (R212, R214, R215) -/

/-- R212: `FX07` is one register write of `DT`. -/
theorem exec_ldVxDT (x : Reg) (s : State) : exec (.ldVxDT x) s = .next (s.writeV x s.dt) := rfl

/-- R214: `FX15` is one record update of `dt`. -/
theorem exec_ldDT (x : Reg) (s : State) : exec (.ldDT x) s = .next { s with dt := s.readV x } := rfl

/-- R215: `FX18` is one record update of `st`; the environment's count of beeps is not touched. -/
theorem exec_ldST (x : Reg) (s : State) : exec (.ldST x) s = .next { s with st := s.readV x } := rfl

/-- Settles O48: `FX07` is one register write, framed by `writeV_eq` and read back by `readV_writeV`; `FX15` and `FX18`
are one record update each. -/
theorem timerAccess : Obligations.TimerAccess := by
  unfold Obligations.TimerAccess
  intro x s
  refine ⟨?readDelay, exec_ldDT x s, exec_ldST x s⟩
  case readDelay => exact ⟨_, exec_ldVxDT x s, s.writeV_eq x _, fun r => s.readV_writeV x r _⟩

end Sys2Proof.Machine

namespace Sys2Proof

/-! ### Masked words (R95)

Each mask of the opcode map keeps whole fields of a word and clears the others, so a masked word is the encoding of the
fields it keeps. -/

/-- `&&&` acts on the four nibbles of a word one by one. -/
theorem encodeXYN_and (op p : Nibble) (x x' y y' : Reg) (n n' : Nibble) :
    encodeXYN op x y n &&& encodeXYN p x' y' n' = encodeXYN (op &&& p) (x &&& x') (y &&& y') (n &&& n') := by
  unfold encodeXYN
  rw [BitVec.and_append, BitVec.and_append, BitVec.and_append]

/-- A mask of whole nibbles, each of them kept or cleared. -/
theorem and_encodeXYN (w : Word) (p : Nibble) (x y : Reg) (n : Nibble) :
    w &&& encodeXYN p x y n = encodeXYN (opField w &&& p) (xField w &&& x) (yField w &&& y) (nField w &&& n) := by
  rw [← encodeXYN_and, encodeXYN_fields]

theorem and_opMask (w : Word) : w &&& 0xF000 = encodeXYN (opField w) 0 0 0 :=
  calc w &&& 0xF000
    _ = w &&& encodeXYN (BitVec.allOnes 4) 0 0 0 := rfl
    _ = encodeXYN (opField w) 0 0 0 := by
      simp only [and_encodeXYN, BitVec.and_allOnes, BitVec.ofNat_eq_ofNat, BitVec.and_zero]

theorem and_opNMask (w : Word) : w &&& 0xF00F = encodeXYN (opField w) 0 0 (nField w) :=
  calc w &&& 0xF00F
    _ = w &&& encodeXYN (BitVec.allOnes 4) 0 0 (BitVec.allOnes 4) := rfl
    _ = encodeXYN (opField w) 0 0 (nField w) := by
      simp only [and_encodeXYN, BitVec.and_allOnes, BitVec.ofNat_eq_ofNat, BitVec.and_zero]

theorem and_opNNMask (w : Word) : w &&& 0xF0FF = encodeXNN (opField w) 0 (nnField w) :=
  calc w &&& 0xF0FF
    _ = w &&& encodeXYN (BitVec.allOnes 4) 0 (BitVec.allOnes 4) (BitVec.allOnes 4) := rfl
    _ = encodeXYN (opField w) 0 (yField w) (nField w) := by
      simp only [and_encodeXYN, BitVec.and_allOnes, BitVec.ofNat_eq_ofNat, BitVec.and_zero]
    _ = encodeXNN (opField w) 0 (nnField w) := by rw [encodeXYN_eq, nnField_append]

theorem and_fullMask (w : Word) : w &&& 0xFFFF = encodeNNN (opField w) (nnnField w) := by
  rw [encodeNNN_fields]
  exact BitVec.and_allOnes

/-! ### A word that decodes matches a row (R95, R96) -/

theorem recognized_iff (w : Word) : recognized w = true ↔ ∃ row ∈ opcodeRows, w &&& row.mask = row.value := by
  simp [recognized, OpcodeRow.applies]

/-- A word matches a row when the row's mask leaves the row's value of it. -/
theorem recognized_of_row {w mask value : Word} (hmask : w &&& mask = value) (hrow : ⟨mask, value⟩ ∈ opcodeRows) :
    recognized w = true := (recognized_iff w).2 ⟨_, hrow, hmask⟩

/-- Family 0 decodes the words of rows 1 and 2 only. -/
theorem row_mem_of_decodeFixed {nnn : Addr12} {i : Instr} (h : decodeFixed nnn = some i) :
    ⟨0xFFFF, encodeNNN 0x0 nnn⟩ ∈ opcodeRows := by
  unfold decodeFixed at h
  split_ifs at h with hnnn hnnn <;> (subst hnnn; decide)

/-- Family 8 decodes the low nibbles of rows 10 to 18 only. -/
theorem row_mem_of_decodeAlu {x y : Reg} {n : Nibble} {i : Instr} (h : decodeAlu x y n = some i) :
    ⟨0xF00F, encodeXYN 0x8 0 0 n⟩ ∈ opcodeRows := by
  unfold decodeAlu at h
  split_ifs at h with hn hn hn hn hn hn hn hn hn <;> (subst hn; decide)

/-- Family E decodes the low bytes of rows 24 and 25 only. -/
theorem row_mem_of_decodeKeySkip {x : Reg} {nn : Byte} {i : Instr} (h : decodeKeySkip x nn = some i) :
    ⟨0xF0FF, encodeXNN 0xE 0 nn⟩ ∈ opcodeRows := by
  unfold decodeKeySkip at h
  split_ifs at h with hnn hnn <;> (subst hnn; decide)

/-- Family F decodes the low bytes of rows 26 to 34 only. -/
theorem row_mem_of_decodeMisc {x : Reg} {nn : Byte} {i : Instr} (h : decodeMisc x nn = some i) :
    ⟨0xF0FF, encodeXNN 0xF 0 nn⟩ ∈ opcodeRows := by
  unfold decodeMisc at h
  split_ifs at h with hnn hnn hnn hnn hnn hnn hnn hnn hnn <;> (subst hnn; decide)

/-! #### The decoder on the families whose rows ask for more than `OP` (R95) -/

theorem decodeWord_family0 {w : Word} (hop : opField w = 0x0) : decodeWord w = decodeFixed (nnnField w) := by
  simp [decodeWord, hop]

theorem decodeWord_family5 {w : Word} (hop : opField w = 0x5) :
    decodeWord w = if nField w = 0x0 then some (.seReg (xField w) (yField w)) else none := by
  simp [decodeWord, hop]

theorem decodeWord_family8 {w : Word} (hop : opField w = 0x8) :
    decodeWord w = decodeAlu (xField w) (yField w) (nField w) := by
  simp [decodeWord, hop]

theorem decodeWord_family9 {w : Word} (hop : opField w = 0x9) :
    decodeWord w = if nField w = 0x0 then some (.sneReg (xField w) (yField w)) else none := by
  simp [decodeWord, hop]

theorem decodeWord_familyE {w : Word} (hop : opField w = 0xE) :
    decodeWord w = decodeKeySkip (xField w) (nnField w) := by
  simp [decodeWord, hop]

theorem decodeWord_familyF {w : Word} (hop : opField w = 0xF) :
    decodeWord w = decodeMisc (xField w) (nnField w) := by
  simp [decodeWord, hop]

/-- The six families without a row that asks for `OP` alone. -/
theorem opField_of_no_family_row : ∀ op : Nibble, ⟨0xF000, encodeXYN op 0 0 0⟩ ∉ opcodeRows →
    op = 0x0 ∨ op = 0x5 ∨ op = 0x8 ∨ op = 0x9 ∨ op = 0xE ∨ op = 0xF := by decide

/-- A word that decodes matches the row of its family or, in a family without one, that of its low field. -/
theorem recognized_of_decodeWord {w : Word} {i : Instr} (h : decodeWord w = some i) : recognized w = true := by
  by_cases hfamily : ⟨0xF000, encodeXYN (opField w) 0 0 0⟩ ∈ opcodeRows
  · exact recognized_of_row (and_opMask w) hfamily
  rcases opField_of_no_family_row _ hfamily with hop | hop | hop | hop | hop | hop
  · rw [decodeWord_family0 hop] at h
    exact recognized_of_row (and_fullMask w) (hop ▸ row_mem_of_decodeFixed h)
  · rw [decodeWord_family5 hop, Option.ite_none_right_eq_some] at h
    obtain ⟨hn, -⟩ := h
    exact recognized_of_row (and_opNMask w) (by rw [hop, hn]; decide)
  · rw [decodeWord_family8 hop] at h
    exact recognized_of_row (and_opNMask w) (hop ▸ row_mem_of_decodeAlu h)
  · rw [decodeWord_family9 hop, Option.ite_none_right_eq_some] at h
    obtain ⟨hn, -⟩ := h
    exact recognized_of_row (and_opNMask w) (by rw [hop, hn]; decide)
  · rw [decodeWord_familyE hop] at h
    exact recognized_of_row (and_opNNMask w) (hop ▸ row_mem_of_decodeKeySkip h)
  · rw [decodeWord_familyF hop] at h
    exact recognized_of_row (and_opNNMask w) (hop ▸ row_mem_of_decodeMisc h)

/-- The decoder rejects every word that matches no row (R96, R100). -/
theorem decodeWord_eq_none {w : Word} (hnorow : ∀ row ∈ opcodeRows, w &&& row.mask ≠ row.value) :
    decodeWord w = none := by
  refine Option.eq_none_iff_forall_ne_some.2 fun i hi => ?_
  obtain ⟨row, hmem, hmatch⟩ := (recognized_iff w).1 (recognized_of_decodeWord hi)
  exact hnorow row hmem hmatch

end Sys2Proof

namespace Sys2Proof.Machine

/-! ### Unrecognized words (R230) -/

/-- A Step whose word does not decode leaves the advanced state (R230). -/
theorem stepOp_unrecognized {s : State} (hr : s.status = .running) (hf : s.fetchable = true)
    (hd : decodeWord s.fetchWord = none) (r : Option Byte) : stepOp r s = .next (s.sampleRnd r).advance := by
  rw [stepOp_running hr, if_pos hf, executeWord, hd, execUnrecognized]

/-- Settles O9: no row matches, so the decoder rejects the word, and the Step leaves the advanced state. -/
theorem unrecognizedWordsAreNoOps : Obligations.UnrecognizedWordsAreNoOps := by
  unfold Obligations.UnrecognizedWordsAreNoOps
  intro r s hrun hpc hnorow
  rw [stepOp_unrecognized hrun (s.fetchable_iff.2 hpc) (decodeWord_eq_none hnorow)]
  rfl

end Sys2Proof.Machine

namespace Sys2Proof

/-! ### Encoding and decoding (R90 to R96, R100) -/

/-- Decoding the word of an instruction gives it back, by the round trip of its form. -/
theorem decodeWord_encode (i : Instr) : decodeWord (encode i) = some i := by
  cases i with
  | cls => exact Laws.RoundTrip.cls
  | ret => exact Laws.RoundTrip.ret
  | jp nnn => exact Laws.RoundTrip.jp nnn
  | call nnn => exact Laws.RoundTrip.call nnn
  | seImm x nn => exact Laws.RoundTrip.seImm x nn
  | sneImm x nn => exact Laws.RoundTrip.sneImm x nn
  | seReg x y => exact Laws.RoundTrip.seReg x y
  | ldImm x nn => exact Laws.RoundTrip.ldImm x nn
  | addImm x nn => exact Laws.RoundTrip.addImm x nn
  | ldReg x y => exact Laws.RoundTrip.ldReg x y
  | orReg x y => exact Laws.RoundTrip.orReg x y
  | andReg x y => exact Laws.RoundTrip.andReg x y
  | xorReg x y => exact Laws.RoundTrip.xorReg x y
  | addReg x y => exact Laws.RoundTrip.addReg x y
  | subReg x y => exact Laws.RoundTrip.subReg x y
  | shr x y => exact Laws.RoundTrip.shr x y
  | subn x y => exact Laws.RoundTrip.subn x y
  | shl x y => exact Laws.RoundTrip.shl x y
  | sneReg x y => exact Laws.RoundTrip.sneReg x y
  | ldI nnn => exact Laws.RoundTrip.ldI nnn
  | jpV0 nnn => exact Laws.RoundTrip.jpV0 nnn
  | rnd x nn => exact Laws.RoundTrip.rnd x nn
  | drw x y n => exact Laws.RoundTrip.drw x y n
  | skp x => exact Laws.RoundTrip.skp x
  | sknp x => exact Laws.RoundTrip.sknp x
  | ldVxDT x => exact Laws.RoundTrip.ldVxDT x
  | ldVxK x => exact Laws.RoundTrip.ldVxK x
  | ldDT x => exact Laws.RoundTrip.ldDT x
  | ldST x => exact Laws.RoundTrip.ldST x
  | addI x => exact Laws.RoundTrip.addI x
  | ldF x => exact Laws.RoundTrip.ldF x
  | ldB x => exact Laws.RoundTrip.ldB x
  | storeRegs x => exact Laws.RoundTrip.storeRegs x
  | loadRegs x => exact Laws.RoundTrip.loadRegs x

/-- The decoder on the two bytes of a word that decodes reads that word and no byte after it. -/
theorem decodeBytes_bytesOfWord {w : Word} {i : Instr} (h : decodeWord w = some i) (rest : List Byte) :
    decodeBytes (bytesOfWord w ++ rest) = .ok (i, rest) := by
  simp only [bytesOfWord, List.cons_append, List.nil_append, decodeBytes, wordOfBytes_bytes, h]

/-- Settles O1: the round trip of every form, on words and through their two bytes. -/
theorem decodeInvertsEncode : Obligations.DecodeInvertsEncode := by
  unfold Obligations.DecodeInvertsEncode
  intro i rest
  exact ⟨decodeWord_encode i, decodeBytes_bytesOfWord (decodeWord_encode i) rest⟩

/-! #### The decoder's families give back their word -/

theorem encode_of_decodeFixed {nnn : Addr12} {i : Instr} (h : decodeFixed nnn = some i) :
    encode i = encodeNNN 0x0 nnn := by
  unfold decodeFixed at h
  split_ifs at h with hnnn hnnn <;> (subst hnnn; cases h; rfl)

theorem encode_of_decodeAlu {x y : Reg} {n : Nibble} {i : Instr} (h : decodeAlu x y n = some i) :
    encode i = encodeXYN 0x8 x y n := by
  unfold decodeAlu at h
  split_ifs at h with hn hn hn hn hn hn hn hn hn <;> (subst hn; cases h; rfl)

theorem encode_of_decodeKeySkip {x : Reg} {nn : Byte} {i : Instr} (h : decodeKeySkip x nn = some i) :
    encode i = encodeXNN 0xE x nn := by
  unfold decodeKeySkip at h
  split_ifs at h with hnn hnn <;> (subst hnn; cases h; rfl)

theorem encode_of_decodeMisc {x : Reg} {nn : Byte} {i : Instr} (h : decodeMisc x nn = some i) :
    encode i = encodeXNN 0xF x nn := by
  unfold decodeMisc at h
  split_ifs at h with hnn hnn hnn hnn hnn hnn hnn hnn hnn <;> (subst hnn; cases h; rfl)

/-- The ten families whose rows ask for `OP` alone (R95). -/
def opAlone : List Nibble := [0x1, 0x2, 0x3, 0x4, 0x6, 0x7, 0xA, 0xB, 0xC, 0xD]

theorem opField_families : ∀ op : Nibble,
    op ∈ opAlone ∨ op = 0x0 ∨ op = 0x5 ∨ op = 0x8 ∨ op = 0x9 ∨ op = 0xE ∨ op = 0xF := by decide

/-- Every word of the ten families encodes an instruction. -/
theorem exists_encode_of_opField {w : Word} (hop : opField w ∈ opAlone) : ∃ j, encode j = w := by
  simp only [opAlone, List.mem_cons, List.not_mem_nil, or_false] at hop
  have hNNN := encodeNNN_fields w
  have hXNN := encodeXNN_fields w
  have hXYN := encodeXYN_fields w
  rcases hop with hop | hop | hop | hop | hop | hop | hop | hop | hop | hop <;> rw [hop] at hNNN hXNN hXYN
  · exact ⟨.jp (nnnField w), hNNN⟩
  · exact ⟨.call (nnnField w), hNNN⟩
  · exact ⟨.seImm (xField w) (nnField w), hXNN⟩
  · exact ⟨.sneImm (xField w) (nnField w), hXNN⟩
  · exact ⟨.ldImm (xField w) (nnField w), hXNN⟩
  · exact ⟨.addImm (xField w) (nnField w), hXNN⟩
  · exact ⟨.ldI (nnnField w), hNNN⟩
  · exact ⟨.jpV0 (nnnField w), hNNN⟩
  · exact ⟨.rnd (xField w) (nnField w), hXNN⟩
  · exact ⟨.drw (xField w) (yField w) (nField w), hXYN⟩

/-- A word that decodes encodes an instruction. -/
theorem exists_encode_of_decodeWord {w : Word} {i : Instr} (h : decodeWord w = some i) : ∃ j, encode j = w := by
  rcases opField_families (opField w) with hop | hop | hop | hop | hop | hop | hop
  · exact exists_encode_of_opField hop
  · rw [decodeWord_family0 hop] at h
    exact ⟨i, by rw [encode_of_decodeFixed h, ← hop, encodeNNN_fields]⟩
  · rw [decodeWord_family5 hop, Option.ite_none_right_eq_some] at h
    obtain ⟨hn, -⟩ := h
    exact ⟨.seReg (xField w) (yField w), by rw [encode, ← hop, ← hn, encodeXYN_fields]⟩
  · rw [decodeWord_family8 hop] at h
    exact ⟨i, by rw [encode_of_decodeAlu h, ← hop, encodeXYN_fields]⟩
  · rw [decodeWord_family9 hop, Option.ite_none_right_eq_some] at h
    obtain ⟨hn, -⟩ := h
    exact ⟨.sneReg (xField w) (yField w), by rw [encode, ← hop, ← hn, encodeXYN_fields]⟩
  · rw [decodeWord_familyE hop] at h
    exact ⟨i, by rw [encode_of_decodeKeySkip h, ← hop, encodeXNN_fields]⟩
  · rw [decodeWord_familyF hop] at h
    exact ⟨i, by rw [encode_of_decodeMisc h, ← hop, encodeXNN_fields]⟩

/-- A word is the encoding of what it decodes to: it encodes some instruction, which is the one it decodes to. -/
theorem encode_of_decodeWord {w : Word} {i : Instr} (h : decodeWord w = some i) : encode i = w := by
  obtain ⟨j, rfl⟩ := exists_encode_of_decodeWord h
  rw [decodeWord_encode, Option.some_inj] at h
  rw [h]

/-- Settles O2: the families of the decoder, each by the fields it reads. -/
theorem encodeInvertsDecode : Obligations.EncodeInvertsDecode := by
  unfold Obligations.EncodeInvertsDecode
  intro w i h
  exact encode_of_decodeWord h

/-! #### A word that matches a row decodes (R95) -/

/-- A field read through a mask that keeps it. -/
theorem extractLsb'_of_and {w mask value : Word} (h : w &&& mask = value) {start len : Nat}
    (hkeeps : mask.extractLsb' start len = BitVec.allOnes len) :
    w.extractLsb' start len = value.extractLsb' start len := by
  rw [← h, BitVec.extractLsb'_and, hkeeps, BitVec.and_allOnes]

theorem isSome_decodeAlu (x y : Reg) (n : Nibble) : (decodeAlu x y n).isSome = (decodeAlu 0 0 n).isSome := by
  unfold decodeAlu
  split_ifs <;> rfl

theorem isSome_decodeKeySkip (x : Reg) (nn : Byte) : (decodeKeySkip x nn).isSome = (decodeKeySkip 0 nn).isSome := by
  unfold decodeKeySkip
  split_ifs <;> rfl

theorem isSome_decodeMisc (x : Reg) (nn : Byte) : (decodeMisc x nn).isSome = (decodeMisc 0 nn).isSome := by
  unfold decodeMisc
  split_ifs <;> rfl

/-- The families that decode whatever the other fields are: each of their words encodes an instruction. -/
theorem isSome_decodeWord_of_opField {w : Word} (hop : opField w ∈ opAlone) :
    (decodeWord w).isSome = true := by
  obtain ⟨j, rfl⟩ := exists_encode_of_opField hop
  rw [decodeWord_encode, Option.isSome_some]

/-- What a row asks for: one of the ten families, a family and a low nibble, a family and a low byte, or the word. -/
theorem row_shape : ∀ row ∈ opcodeRows,
    row.mask = 0xF000 ∧ opField row.value ∈ opAlone ∨
    row.mask = 0xF00F ∧ ((opField row.value = 0x5 ∨ opField row.value = 0x9) ∧ nField row.value = 0x0 ∨
      opField row.value = 0x8 ∧ (decodeAlu 0 0 (nField row.value)).isSome = true) ∨
    row.mask = 0xF0FF ∧ (opField row.value = 0xE ∧ (decodeKeySkip 0 (nnField row.value)).isSome = true ∨
      opField row.value = 0xF ∧ (decodeMisc 0 (nnField row.value)).isSome = true) ∨
    row.mask = 0xFFFF ∧ (decodeWord row.value).isSome = true := by decide

theorem isSome_decodeWord_of_row {w : Word} {row : OpcodeRow} (hrow : row ∈ opcodeRows)
    (hmatch : w &&& row.mask = row.value) : (decodeWord w).isSome = true := by
  rcases row_shape row hrow with ⟨hmask, hop⟩ | ⟨hmask, hlow⟩ | ⟨hmask, hlow⟩ | ⟨hmask, hword⟩ <;>
    rw [hmask] at hmatch
  · have hopw : opField w = opField row.value := extractLsb'_of_and hmatch rfl
    exact isSome_decodeWord_of_opField (hopw ▸ hop)
  · have hopw : opField w = opField row.value := extractLsb'_of_and hmatch rfl
    have hnw : nField w = nField row.value := extractLsb'_of_and hmatch rfl
    rcases hlow with ⟨hop | hop, hn⟩ | ⟨hop, halu⟩
    · rw [decodeWord_family5 (hopw.trans hop), hnw, if_pos hn, Option.isSome_some]
    · rw [decodeWord_family9 (hopw.trans hop), hnw, if_pos hn, Option.isSome_some]
    · rw [decodeWord_family8 (hopw.trans hop), hnw, isSome_decodeAlu, halu]
  · have hopw : opField w = opField row.value := extractLsb'_of_and hmatch rfl
    have hnnw : nnField w = nnField row.value := extractLsb'_of_and hmatch rfl
    rcases hlow with ⟨hop, hskip⟩ | ⟨hop, hmisc⟩
    · rw [decodeWord_familyE (hopw.trans hop), hnnw, isSome_decodeKeySkip, hskip]
    · rw [decodeWord_familyF (hopw.trans hop), hnnw, isSome_decodeMisc, hmisc]
  · have hw : w = row.value := BitVec.and_allOnes.symm.trans hmatch
    rw [hw, hword]

/-- Settles O3: a word that decodes matches the row of its family, and the fields a row asks for decode. -/
theorem decoderAgreesWithOpcodeMap : Obligations.DecoderAgreesWithOpcodeMap := by
  unfold Obligations.DecoderAgreesWithOpcodeMap
  intro w
  constructor
  · intro h
    obtain ⟨i, hi⟩ := Option.isSome_iff_exists.1 h
    exact (recognized_iff w).1 (recognized_of_decodeWord hi)
  · rintro ⟨row, hrow, hmatch⟩
    exact isSome_decodeWord_of_row hrow hmatch

/-- Two rows that one word matches agree on the bits that both of them ask for. -/
theorem values_agree_of_matches {w : Word} {p q : OpcodeRow} (hp : w &&& p.mask = p.value)
    (hq : w &&& q.mask = q.value) : p.value &&& q.mask = q.value &&& p.mask := by
  rw [← hp, ← hq, BitVec.and_assoc, BitVec.and_assoc, BitVec.and_comm p.mask]

theorem opcodeRows_disagree :
    opcodeRows.Pairwise (fun p q => p.value &&& q.mask ≠ q.value &&& p.mask) := by decide

/-- Settles O4: any two rows disagree on a bit that both of them ask for. -/
theorem opcodeRowsAreDisjoint : Obligations.OpcodeRowsAreDisjoint := by
  unfold Obligations.OpcodeRowsAreDisjoint
  refine ⟨rfl, opcodeRows_disagree.imp ?_⟩
  rintro p q hdisagree w ⟨hp, hq⟩
  exact hdisagree (values_agree_of_matches hp hq)

/-- Settles O5: each word by running the decoder on it. -/
theorem documentedWordsDecode : Obligations.DocumentedWordsDecode := by
  unfold Obligations.DocumentedWordsDecode
  decide

end Sys2Proof

namespace Sys2Proof.Machine

/-! ### The effect of each instruction that has none stated above -/

theorem exec_ret_of_pos {s : State} (h : 0 < s.sp.val) :
    exec .ret s = .next
      { s with sp := ⟨s.sp.val - 1, by omega⟩, pc := s.stack[s.sp.val - 1]'(by omega) } := dif_pos h

theorem exec_call_of_lt (nnn : Addr12) {s : State} (h : s.sp.val < 16) :
    exec (.call nnn) s = .next
      { s with stack := s.stack.set s.sp.val s.pc h, sp := ⟨s.sp.val + 1, by omega⟩, pc := zextAddr nnn } := dif_pos h

/-- R128: `BNNN` is one record update of `pc`. -/
theorem exec_jpV0 (nnn : Addr12) (s : State) :
    exec (.jpV0 nnn) s = .next { s with pc := zextAddr nnn + (s.jumpOffset nnn).setWidth 16 } := rfl

theorem exec_addReg (x y : Reg) (s : State) :
    exec (.addReg x y) s =
      .next (s.writeWithFlag x (s.readV x + s.readV y) (carryOut (s.readV x) (s.readV y))) := rfl

theorem exec_subReg (x y : Reg) (s : State) :
    exec (.subReg x y) s =
      .next (s.writeWithFlag x (s.readV x - s.readV y) (noBorrow (s.readV x) (s.readV y))) := rfl

theorem exec_subn (x y : Reg) (s : State) :
    exec (.subn x y) s =
      .next (s.writeWithFlag x (s.readV y - s.readV x) (noBorrow (s.readV y) (s.readV x))) := rfl

theorem exec_shr (x y : Reg) (s : State) :
    exec (.shr x y) s =
      .next (s.writeWithFlag x (s.shiftOperand x y >>> 1) (shiftedOutRight (s.shiftOperand x y))) := rfl

theorem exec_shl (x y : Reg) (s : State) :
    exec (.shl x y) s =
      .next (s.writeWithFlag x (s.shiftOperand x y <<< 1) (shiftedOutLeft (s.shiftOperand x y))) := rfl

theorem exec_rnd (x : Reg) (nn : Byte) (s : State) :
    exec (.rnd x nn) s =
      .next ({ s with env := { s.env with draws := s.env.draws + 1 } }.writeV x (s.rndByte &&& nn)) := rfl

theorem exec_addI (x : Reg) (s : State) :
    exec (.addI x) s =
      .next ({ s with i := s.i + (s.readV x).setWidth 16 }.writeV 15 (flagByte (indexOverflow s.i (s.readV x)))) := rfl

theorem exec_skp (x : Reg) (s : State) : exec (.skp x) s = .next (s.skipIf (s.held (s.readV x))) := rfl

theorem exec_sknp (x : Reg) (s : State) : exec (.sknp x) s = .next (s.skipIf (!s.held (s.readV x))) := rfl

/-- R213: some key of the last sample is released, and the wait completes with it. -/
theorem exec_ldVxK_of_some (x : Reg) {s : State} {k : Nat} (h : lowestKey s.released = some k) :
    exec (.ldVxK x) s = .next ({ s with kw := 0 }.writeV x (BitVec.ofNat 8 k)) := by
  simp only [exec, execLdVxK, h]

/-- R213: no key of the last sample is released, and the wait goes on. -/
theorem exec_ldVxK_of_none (x : Reg) {s : State} (h : lowestKey s.released = none) :
    exec (.ldVxK x) s = .next { s with kw := s.keys, pc := s.pc - 2 } := by
  simp only [exec, execLdVxK, h]

/-- `I` after `FX55` and `FX65` (R175). -/
def State.nextIndex (s : State) (x : Reg) : Word :=
  if s.quirks.incrementIndex then BitVec.ofNat 16 (s.i.toNat + x.toNat + 1) else s.i

/-- R176, R175: `FX55` is a checked update of `MEM` and `I`. -/
theorem exec_storeRegs (x : Reg) (s : State) :
    exec (.storeRegs x) s = s.checked x.toNat
      { s with mem := s.mem.writeBytes s.i.toNat (s.readBlock 0 (x.toNat + 1)), i := s.nextIndex x } := by
  simp only [exec, execStoreRegs, State.advanceIndex_eq, State.nextIndex]

/-- R177, R175: `FX65` is a checked update of the register file and `I`. -/
theorem exec_loadRegs (x : Reg) (s : State) :
    exec (.loadRegs x) s = s.checked x.toNat
      { s with v := (s.writeBlock 0 (s.mem.readBytes s.i.toNat (x.toNat + 1))).v, i := s.nextIndex x } := by
  unfold exec execLoadRegs State.nextIndex
  dsimp only
  rw [State.advanceIndex_eq, State.writeBlock_eq]

/-- R173: `FX33` is a checked update of `MEM`. -/
theorem exec_ldB (x : Reg) (s : State) :
    exec (.ldB x) s =
      s.checked 2 { s with mem := s.mem.writeBytes s.i.toNat (decimalDigits (s.readV x)) } := rfl

theorem exec_drw_of_no_rows (x : Reg) {y : Reg} {n : Nibble} {s : State} (h : s.drawnRows y n = 0) :
    exec (.drw x y n) s = .next (s.writeV 15 0) := if_pos h

/-- R192: a draw of some rows is a checked update of the display and `VF`. -/
theorem exec_drw_of_rows (x : Reg) {y : Reg} {n : Nibble} {s : State} (h : s.drawnRows y n ≠ 0) :
    exec (.drw x y n) s = s.checked (s.drawnRows y n - 1)
      ({ s with disp := (s.drawn x y n).1 }.writeV 15 (flagByte (s.drawn x y n).2)) := if_neg h

/-- A draw of no rows collides with nothing (R192). -/
theorem State.drawn_of_no_rows (x : Reg) {y : Reg} {n : Nibble} {s : State} (h : s.drawnRows y n = 0) :
    s.drawn x y n = (s.disp, false) := by
  rw [State.drawn, h, blitRows]

/-! ### The bits that the shifts shift out (R149, R151) -/

theorem shiftedOutRight_eq (b : Byte) : shiftedOutRight b = decide (b.toNat % 2 = 1) := by
  rw [shiftedOutRight, BitVec.getLsbD, Nat.testBit_zero]

theorem shiftedOutLeft_eq (b : Byte) : shiftedOutLeft b = decide (b.toNat ≥ 128) :=
  BitVec.msb_eq_decide b

/-! ### What an instruction does: the raise, or the effect within its frame (R23, R25, R240, R244) -/

/-- The state after a raise (R244). -/
def State.raised (s : State) (c : Cause) (n : Nat) : State :=
  { s with pc := s.pc - 2, status := .faulted c n }

theorem exec_ret_of_empty {s : State} (h : s.sp.val = 0) :
    exec .ret s = .next (s.raised .stackUnderflow (s.pc - 2).toNat) :=
  dif_neg (by omega : ¬0 < s.sp.val)

theorem exec_call_of_full (nnn : Addr12) {s : State} (h : s.sp.val = 16) :
    exec (.call nnn) s = .next (s.raised .stackOverflow (s.pc - 2).toNat) :=
  dif_neg (by omega : ¬s.sp.val < 16)

/-- R240: the instruction meets this fault in this state, with this info. -/
def Raises (i : Instr) (s : State) (c : Cause) (n : Nat) : Prop :=
  (c = .stackOverflow ∧ n = (s.pc - 2).toNat ∧ s.sp.val = 16 ∧ ∃ nnn, i = .call nnn) ∨
  (c = .stackUnderflow ∧ n = (s.pc - 2).toNat ∧ s.sp.val = 0 ∧ i = .ret) ∨
  (c = .dataAddressOutOfRange ∧ n = max s.i.toNat 4096 ∧ ∃ last, dataExtent i s = some last ∧ s.i.toNat + last > 4095)

/-- An instruction that cannot raise meets no fault. -/
theorem not_raises_of_mayRaise {i : Instr} {s : State} (h : mayRaise i s = false) (c : Cause) (n : Nat) :
    ¬Raises i s c n := by
  rintro (⟨-, -, -, nnn, rfl⟩ | ⟨-, -, -, rfl⟩ | ⟨-, -, last, hext, -⟩)
  · cases h
  · cases h
  · unfold mayRaise at h
    split at h
    · cases h
    · cases h
    · rw [hext] at h
      cases h

/-- An instruction with a data access meets one fault, that of its last address. -/
theorem raises_iff_of_dataExtent {i : Instr} {s : State} {last : Nat} (h : dataExtent i s = some last) {c : Cause}
    {n : Nat} :
    Raises i s c n ↔ c = .dataAddressOutOfRange ∧ n = max s.i.toNat 4096 ∧ s.i.toNat + last > 4095 := by
  constructor
  · rintro (⟨-, -, -, nnn, rfl⟩ | ⟨-, -, -, rfl⟩ | ⟨hc, hn, last', hext, hgt⟩)
    · cases h
    · cases h
    · rw [h, Option.some_inj] at hext
      exact ⟨hc, hn, hext ▸ hgt⟩
  · rintro ⟨hc, hn, hgt⟩
    exact .inr (.inr ⟨hc, hn, last, h, hgt⟩)

/-- An instruction meets one fault at most in a state. -/
theorem Raises.unique {i : Instr} {s : State} {c d : Cause} {n m : Nat} (h : Raises i s c n) (h' : Raises i s d m) :
    c = d ∧ n = m := by
  rcases h with ⟨rfl, rfl, -, nnn, rfl⟩ | ⟨rfl, rfl, -, rfl⟩ | ⟨rfl, rfl, last, hext, -⟩
  · rcases h' with ⟨rfl, rfl, -⟩ | ⟨-, -, -, hi⟩ | ⟨-, -, last, hext, -⟩
    · exact ⟨rfl, rfl⟩
    · cases hi
    · cases hext
  · rcases h' with ⟨-, -, -, nnn, hi⟩ | ⟨rfl, rfl, -⟩ | ⟨-, -, last, hext, -⟩
    · cases hi
    · exact ⟨rfl, rfl⟩
    · cases hext
  · obtain ⟨rfl, rfl, -⟩ := (raises_iff_of_dataExtent hext).1 h'
    exact ⟨rfl, rfl⟩

/-- What the instruction leaves as it was, by the writers of each piece of state (table of 10_state.md section 1). A
field that an update does not touch at all holds by unfolding, and is not written out below. -/
structure Frame (i : Instr) (s t : State) : Prop where
  sp : writesSP i = false → t.sp = s.sp := by intros; rfl
  stack : writesStack i = false → t.stack = s.stack := by intros; rfl
  mem : writesMem i = false → t.mem = s.mem := by intros; rfl
  stores : ∃ a bs, t.mem = s.mem.writeBytes a bs := by exact ⟨0, [], rfl⟩
  disp : writesDisp i = false → t.disp = s.disp := by intros; rfl
  index : writesI i s = false → t.i = s.i := by intros; rfl
  dt : (∀ x, i ≠ .ldDT x) → t.dt = s.dt := by intros; rfl
  st : (∀ x, i ≠ .ldST x) → t.st = s.st := by intros; rfl
  kw : (∀ x, i ≠ .ldVxK x) → t.kw = s.kw := by intros; rfl
  quirks : t.quirks = s.quirks := by rfl
  keys : t.keys = s.keys := by rfl
  env : t.env = { s.env with draws := t.env.draws } := by rfl
  draws : (∀ x nn, i ≠ .rnd x nn) → t.env.draws = s.env.draws := by intros; rfl
  regs : ∀ r, namesDest i r = false → (r ≠ 15 ∨ flagOutcome i s = none) → t.readV r = s.readV r := by intros; rfl

/-- What a completed instruction does besides: it leaves `STATUS`, leaves `pc` advanced unless it transfers control, and
its flag outcome stands in `VF` (R23, R25, R39). -/
structure Completes (i : Instr) (s t : State) : Prop extends Frame i s t where
  status : t.status = s.status := by rfl
  pc : transfersControl i = false → t.pc = s.pc := by intros; rfl
  flag : ∀ f, flagOutcome i s = some f → t.readV 15 = flagByte f := by nofun

theorem Frame.raised (i : Instr) (s : State) (c : Cause) (n : Nat) : Frame i s (s.raised c n) where

theorem Frame.font {i : Instr} {s t : State} (h : Frame i s t) : t.mem.font = s.mem.font := by
  obtain ⟨a, bs, hmem⟩ := h.stores
  rw [hmem, Memory.writeBytes_font]

theorem Frame.mem_wf {i : Instr} {s t : State} (h : Frame i s t) (hwf : s.mem.wf) : t.mem.wf := by
  obtain ⟨a, bs, hmem⟩ := h.stores
  rw [hmem]
  exact Memory.wf_writeBytes bs hwf a

/-! #### The effects, by the update they make -/

section
variable {i : Instr} {s : State}

theorem Completes.setPc (htransfers : transfersControl i = true) (hflag : flagOutcome i s = none) (p : Word) :
    Completes i s { s with pc := p } where
  pc := by simp [htransfers]
  flag := by simp [hflag]

theorem Completes.skipIf (htransfers : transfersControl i = true) (hflag : flagOutcome i s = none) (b : Bool) :
    Completes i s (s.skipIf b) := by
  rw [State.skipIf_eq]
  exact .setPc htransfers hflag _

theorem Completes.writeV {x : Reg} (hdest : ∀ r, namesDest i r = (r == x)) (hflag : flagOutcome i s = none)
    (b : Byte) : Completes i s (s.writeV x b) where
  regs r hr _ := s.readV_writeV_other b (by simpa [hdest] using hr)
  flag := by simp [hflag]

theorem Completes.writeWithFlag {x : Reg} {f : Bool} (hdest : ∀ r, namesDest i r = (r == x))
    (hflag : flagOutcome i s = some f) (b : Byte) : Completes i s (s.writeWithFlag x b f) where
  regs r hr hVF := by
    have hx : r ≠ x := by simpa [hdest] using hr
    have h15 : r ≠ 15 := by simpa [hflag] using hVF
    rw [State.readV_writeWithFlag, if_neg h15, if_neg hx]
  flag g hg := by
    rw [hflag, Option.some_inj] at hg
    rw [State.readV_writeWithFlag, if_pos rfl, hg]

/-- The flag alone is written last, after an update that leaves the register file. -/
theorem readV_writeV_flag {t : State} (hv : t.v = s.v) {r : Reg} (hr : r ≠ 15) (b : Byte) :
    (t.writeV 15 b).readV r = s.readV r := by
  rw [t.readV_writeV_other b hr, State.readV, State.readV, hv]

end

theorem completes_addI (x : Reg) (s : State) :
    Completes (.addI x) s
      ({ s with i := s.i + (s.readV x).setWidth 16 }.writeV 15 (flagByte (indexOverflow s.i (s.readV x)))) where
  index := nofun
  regs r _ hVF := readV_writeV_flag rfl (by simpa [flagOutcome] using hVF) _
  flag f hf := by
    cases hf
    exact State.readV_writeV_same _ _ _

theorem completes_drw {x y : Reg} {n : Nibble} {s : State} :
    Completes (.drw x y n) s ({ s with disp := (s.drawn x y n).1 }.writeV 15 (flagByte (s.drawn x y n).2)) where
  disp := nofun
  regs r _ hVF := readV_writeV_flag rfl (by simpa [flagOutcome] using hVF) _
  flag f hf := by
    cases hf
    exact State.readV_writeV_same _ _ _

theorem completes_drw_of_no_rows (x : Reg) {y : Reg} {n : Nibble} {s : State} (h : s.drawnRows y n = 0) :
    Completes (.drw x y n) s (s.writeV 15 0) := by
  have := completes_drw (x := x) (y := y) (n := n) (s := s)
  rwa [State.drawn_of_no_rows x h] at this

theorem completes_loadRegs (x : Reg) (s : State) :
    Completes (.loadRegs x) s
      { s with v := (s.writeBlock 0 (s.mem.readBytes s.i.toNat (x.toNat + 1))).v, i := s.nextIndex x } where
  index h := if_neg (by simpa [writesI] using h)
  regs r hr _ := by
    have hbeyond : ¬r.toNat ≤ x.toNat := by simpa [namesDest] using hr
    have hx := x.isLt
    refine (State.readV_writeBlock _ _ _ _ (by simp; omega)).trans (dif_neg ?_)
    simp
    omega

theorem completes_storeRegs (x : Reg) (s : State) :
    Completes (.storeRegs x) s
      { s with mem := s.mem.writeBytes s.i.toNat (s.readBlock 0 (x.toNat + 1)), i := s.nextIndex x } where
  mem := nofun
  stores := ⟨_, _, rfl⟩
  index h := if_neg (by simpa [writesI] using h)

theorem completes_ldVxK_of_some (x : Reg) (s : State) (b : Byte) :
    Completes (.ldVxK x) s ({ s with kw := 0 }.writeV x b) where
  kw h := absurd rfl (h x)
  pc := nofun
  regs r hr _ := State.readV_writeV_other _ b (by simpa [namesDest] using hr)

theorem completes_rnd (x : Reg) (nn : Byte) (s : State) (b : Byte) :
    Completes (.rnd x nn) s ({ s with env := { s.env with draws := s.env.draws + 1 } }.writeV x b) where
  draws h := absurd rfl (h x nn)
  regs r hr _ := State.readV_writeV_other _ b (by simpa [namesDest] using hr)

/-! #### Everything an instruction can do -/

/-- An instruction meets a fault and raises it, or meets none and completes within its frame. -/
def Outcome (i : Instr) (s : State) : Prop :=
  (∃ c n, Raises i s c n ∧ exec i s = .next (s.raised c n)) ∨
  ((∀ c n, ¬Raises i s c n) ∧ ∃ t, exec i s = .next t ∧ Completes i s t)

/-- The outcome of an instruction that cannot raise. -/
theorem Completes.outcome {i : Instr} {s t : State} (h : Completes i s t) (hexec : exec i s = .next t)
    (hraise : mayRaise i s = false) : Outcome i s :=
  .inr ⟨not_raises_of_mayRaise hraise, t, hexec, h⟩

/-- The outcome of an instruction whose effect is a checked data access (R174). -/
theorem Completes.outcome_checked {i : Instr} {s t : State} {last : Nat} (h : Completes i s t)
    (hexec : exec i s = s.checked last t) (hext : dataExtent i s = some last) : Outcome i s := by
  by_cases hgt : s.i.toNat + last > 4095
  · exact .inl ⟨_, _, (raises_iff_of_dataExtent hext).2 ⟨rfl, rfl, hgt⟩, hexec.trans (State.checked_of_gt hgt)⟩
  · refine .inr ⟨fun c n hraises => ?_, t, hexec.trans (State.checked_of_le (by omega)), h⟩
    obtain ⟨-, -, h⟩ := (raises_iff_of_dataExtent hext).1 hraises
    exact hgt h

theorem outcome_ret (s : State) : Outcome .ret s := by
  by_cases h : s.sp.val = 0
  · exact .inl ⟨_, _, .inr (.inl ⟨rfl, rfl, h, rfl⟩), exec_ret_of_empty h⟩
  · refine .inr ⟨?_, _, exec_ret_of_pos (by omega), { sp := nofun, pc := nofun }⟩
    rintro c n (⟨-, -, -, nnn, hi⟩ | ⟨-, -, hempty, -⟩ | ⟨-, -, last, hext, -⟩)
    · cases hi
    · exact h hempty
    · cases hext

theorem outcome_call (nnn : Addr12) (s : State) : Outcome (.call nnn) s := by
  by_cases h : s.sp.val = 16
  · exact .inl ⟨_, _, .inl ⟨rfl, rfl, h, nnn, rfl⟩, exec_call_of_full nnn h⟩
  · have hlt : s.sp.val < 16 := by omega
    refine .inr ⟨?_, _, exec_call_of_lt nnn hlt, { sp := nofun, stack := nofun, pc := nofun }⟩
    rintro c n (⟨-, -, hfull, -⟩ | ⟨-, -, -, hi⟩ | ⟨-, -, last, hext, -⟩)
    · exact h hfull
    · cases hi
    · cases hext

/-- R192: a draw accesses memory through `I` iff it draws rows. -/
theorem dataExtent_drw (x y : Reg) (n : Nibble) (s : State) :
    dataExtent (.drw x y n) s = if s.drawnRows y n = 0 then none else some (s.drawnRows y n - 1) := rfl

theorem outcome_drw (x y : Reg) (n : Nibble) (s : State) : Outcome (.drw x y n) s := by
  by_cases h : s.drawnRows y n = 0
  · refine (completes_drw_of_no_rows x h).outcome (exec_drw_of_no_rows x h) ?_
    show (dataExtent (.drw x y n) s).isSome = false
    rw [dataExtent_drw, if_pos h, Option.isSome_none]
  · exact completes_drw.outcome_checked (exec_drw_of_rows x h) ((dataExtent_drw x y n s).trans (if_neg h))

theorem outcome_ldVxK (x : Reg) (s : State) : Outcome (.ldVxK x) s := by
  cases h : lowestKey s.released with
  | some k => exact (completes_ldVxK_of_some x s _).outcome (exec_ldVxK_of_some x h) rfl
  | none =>
    have hwait : Completes (.ldVxK x) s { s with kw := s.keys, pc := s.pc - 2 } :=
      { kw := fun h => absurd rfl (h x), pc := nofun }
    exact hwait.outcome (exec_ldVxK_of_none x h) rfl

theorem exec_outcome (i : Instr) (s : State) : Outcome i s := by
  cases i with
  | cls => exact Completes.outcome { disp := nofun } (exec_cls s) rfl
  | ret => exact outcome_ret s
  | jp nnn => exact (Completes.setPc rfl rfl _).outcome (exec_jp nnn s) rfl
  | call nnn => exact outcome_call nnn s
  | seImm x nn => exact (Completes.skipIf rfl rfl _).outcome (exec_seImm x nn s) rfl
  | sneImm x nn => exact (Completes.skipIf rfl rfl _).outcome (exec_sneImm x nn s) rfl
  | seReg x y => exact (Completes.skipIf rfl rfl _).outcome (exec_seReg x y s) rfl
  | ldImm x nn => exact (Completes.writeV (fun _ => rfl) rfl _).outcome (exec_ldImm x nn s) rfl
  | addImm x nn => exact (Completes.writeV (fun _ => rfl) rfl _).outcome (exec_addImm x nn s) rfl
  | ldReg x y => exact (Completes.writeV (fun _ => rfl) rfl _).outcome (exec_ldReg x y s) rfl
  | orReg x y => exact (Completes.writeV (fun _ => rfl) rfl _).outcome (exec_orReg x y s) rfl
  | andReg x y => exact (Completes.writeV (fun _ => rfl) rfl _).outcome (exec_andReg x y s) rfl
  | xorReg x y => exact (Completes.writeV (fun _ => rfl) rfl _).outcome (exec_xorReg x y s) rfl
  | addReg x y => exact (Completes.writeWithFlag (fun _ => rfl) rfl _).outcome (exec_addReg x y s) rfl
  | subReg x y => exact (Completes.writeWithFlag (fun _ => rfl) rfl _).outcome (exec_subReg x y s) rfl
  | shr x y =>
    have hflag : flagOutcome (.shr x y) s = some (shiftedOutRight (s.shiftOperand x y)) := by
      rw [shiftedOutRight_eq, flagOutcome, State.shiftOperand]
    exact (Completes.writeWithFlag (fun _ => rfl) hflag _).outcome (exec_shr x y s) rfl
  | subn x y => exact (Completes.writeWithFlag (fun _ => rfl) rfl _).outcome (exec_subn x y s) rfl
  | shl x y =>
    have hflag : flagOutcome (.shl x y) s = some (shiftedOutLeft (s.shiftOperand x y)) := by
      rw [shiftedOutLeft_eq, flagOutcome, State.shiftOperand]
    exact (Completes.writeWithFlag (fun _ => rfl) hflag _).outcome (exec_shl x y s) rfl
  | sneReg x y => exact (Completes.skipIf rfl rfl _).outcome (exec_sneReg x y s) rfl
  | ldI nnn => exact Completes.outcome { index := nofun } (exec_ldI nnn s) rfl
  | jpV0 nnn => exact (Completes.setPc rfl rfl _).outcome (exec_jpV0 nnn s) rfl
  | rnd x nn => exact (completes_rnd x nn s _).outcome (exec_rnd x nn s) rfl
  | drw x y n => exact outcome_drw x y n s
  | skp x => exact (Completes.skipIf rfl rfl _).outcome (exec_skp x s) rfl
  | sknp x => exact (Completes.skipIf rfl rfl _).outcome (exec_sknp x s) rfl
  | ldVxDT x => exact (Completes.writeV (fun _ => rfl) rfl _).outcome (exec_ldVxDT x s) rfl
  | ldVxK x => exact outcome_ldVxK x s
  | ldDT x => exact Completes.outcome { dt := fun h => absurd rfl (h x) } (exec_ldDT x s) rfl
  | ldST x => exact Completes.outcome { st := fun h => absurd rfl (h x) } (exec_ldST x s) rfl
  | addI x => exact (completes_addI x s).outcome (exec_addI x s) rfl
  | ldF x => exact Completes.outcome { index := nofun } (exec_ldF x s) rfl
  | ldB x => exact Completes.outcome_checked { mem := nofun, stores := ⟨_, _, rfl⟩ } (exec_ldB x s) rfl
  | storeRegs x => exact (completes_storeRegs x s).outcome_checked (exec_storeRegs x s) rfl
  | loadRegs x => exact (completes_loadRegs x s).outcome_checked (exec_loadRegs x s) rfl

/-- Everything an instruction that answers `t` can have done (R23, R25, R240, R244). -/
theorem exec_cases {i : Instr} {s t : State} (h : exec i s = .next t) :
    (∃ c n, Raises i s c n ∧ t = s.raised c n) ∨ ((∀ c n, ¬Raises i s c n) ∧ Completes i s t) := by
  rcases exec_outcome i s with ⟨c, n, hraises, hexec⟩ | ⟨hno, u, hexec, hcompletes⟩ <;>
    rw [hexec, Host.Outcome.next.injEq] at h <;> subst h
  · exact .inl ⟨c, n, hraises, rfl⟩
  · exact .inr ⟨hno, hcompletes⟩

theorem exec_frame {i : Instr} {s t : State} (h : exec i s = .next t) : Frame i s t := by
  rcases exec_cases h with ⟨c, n, -, rfl⟩ | ⟨-, hcompletes⟩
  · exact .raised i s c n
  · exact hcompletes.toFrame

theorem exec_total (i : Instr) (s : State) : ∃ t, exec i s = .next t := by
  rcases exec_outcome i s with ⟨c, n, -, hexec⟩ | ⟨-, t, hexec, -⟩
  · exact ⟨_, hexec⟩
  · exact ⟨t, hexec⟩

/-- From Running, an instruction faults iff it meets that fault, and then it has raised it. -/
theorem exec_faulted_iff {i : Instr} {s t : State} (hrun : s.status = .running) (h : exec i s = .next t) (c : Cause)
    (n : Nat) : t.status = .faulted c n ↔ Raises i s c n := by
  rcases exec_cases h with ⟨d, m, hraises, rfl⟩ | ⟨hno, hcompletes⟩
  · constructor
    · intro hst
      cases hst
      exact hraises
    · intro h'
      obtain ⟨rfl, rfl⟩ := hraises.unique h'
      rfl
  · rw [hcompletes.status, hrun]
    exact iff_of_false nofun (hno c n)

/-- Settles O11: an instruction faults by a raise alone, and raises exactly the fault it meets. -/
theorem faultConditions : Obligations.FaultConditions := by
  unfold Obligations.FaultConditions
  intro i s t c n hrun hexec
  exact exec_faulted_iff hrun hexec c n

/-- Settles O14: every outcome is a next state, and no instruction writes the environment's inputs. -/
theorem everyInstructionCompletes : Obligations.EveryInstructionCompletes := by
  unfold Obligations.EveryInstructionCompletes
  intro i s
  obtain ⟨t, hexec⟩ := exec_total i s
  have hframe := exec_frame hexec
  exact ⟨t, hexec, hframe.quirks, hframe.keys⟩

/-- Settles O51: a raise does not end in Running, and a completed instruction has its flag outcome in `VF`. -/
theorem flagOutcomes : Obligations.FlagOutcomes := by
  unfold Obligations.FlagOutcomes
  intro i s t f _ hexec hrun' hflag
  rcases exec_cases hexec with ⟨c, n, -, rfl⟩ | ⟨-, hcompletes⟩
  · cases hrun'
  · exact hcompletes.flag f hflag

/-- Settles O52: the register file is part of every instruction's frame. -/
theorem registersChangeOnlyAsNamed : Obligations.RegistersChangeOnlyAsNamed := by
  unfold Obligations.RegistersChangeOnlyAsNamed
  intro i s t r hexec hdest hVF
  exact (exec_frame hexec).regs r hdest hVF

/-- `STATUS` changes by a raise alone. -/
theorem status_of_mayRaise {i : Instr} {s t : State} (hexec : exec i s = .next t) (h : mayRaise i s = false) :
    t.status = s.status := by
  rcases exec_cases hexec with ⟨c, n, hraises, -⟩ | ⟨-, hcompletes⟩
  · exact absurd hraises (not_raises_of_mayRaise h c n)
  · exact hcompletes.status

/-- A run that goes on leaves `pc` advanced but for the instructions that transfer control (R25). -/
theorem pc_of_transfersControl {i : Instr} {s t : State} (hexec : exec i s = .next t)
    (h : transfersControl i = false) (hrun : t.status = .running) : t.pc = s.pc := by
  rcases exec_cases hexec with ⟨c, n, -, rfl⟩ | ⟨-, hcompletes⟩
  · cases hrun
  · exact hcompletes.pc h

/-- Settles O53: the frame of every instruction, `STATUS` by raises alone, and `pc` in a run that goes on. -/
theorem stateIsWrittenOnlyByItsWriters : Obligations.StateIsWrittenOnlyByItsWriters := by
  unfold Obligations.StateIsWrittenOnlyByItsWriters
  intro i s t hexec
  have hframe := exec_frame hexec
  exact ⟨hframe.sp, hframe.stack, hframe.mem, hframe.disp, hframe.index, hframe.dt, hframe.st, hframe.kw,
    status_of_mayRaise hexec, fun htransfers _ => pc_of_transfersControl hexec htransfers,
    hframe.quirks, hframe.keys, hframe.font, hframe.env, hframe.draws⟩

end Sys2Proof.Machine

namespace Sys2Proof.Machine

/-! ### Everything one step can do (R5, R6, R9) -/

/-- Everything a Step can do in Running: the fetch fault, the no-op, or the instruction at `pc` (R6, R64, R230). -/
theorem stepOp_cases {s t : State} {r : Option Byte} (hrun : s.status = .running) (h : stepOp r s = .next t) :
    (s.fetchable = false ∧ t = s.enterFault .fetchOutOfRange s.pc.toNat) ∨
    (s.fetchable = true ∧ decodeWord s.fetchWord = none ∧ t = (s.sampleRnd r).advance) ∨
    ∃ i, s.fetchable = true ∧ decodeWord s.fetchWord = some i ∧ exec i (s.sampleRnd r).advance = .next t := by
  rw [stepOp_running hrun] at h
  cases hfetch : s.fetchable with
  | false =>
    rw [hfetch, if_neg Bool.false_ne_true, Host.Outcome.next.injEq] at h
    exact .inl ⟨rfl, h.symm⟩
  | true =>
    rw [hfetch, if_pos rfl] at h
    rcases executeWord_cases h with ⟨i, hdecode, hexec⟩ | ⟨hdecode, ht⟩
    · exact .inr (.inr ⟨i, rfl, hdecode, hexec⟩)
    · exact .inr (.inl ⟨rfl, hdecode, ht⟩)

/-- Everything an operation of the environment can do (R5, R280). -/
theorem perform_cases {op : Op} {s t : State} (h : perform op s = .next t) :
    (∃ r, op = .step r ∧ stepOp r s = .next t) ∨ (op = .tick ∧ t = tickOp s) ∨
    (∃ k, op = .setKeys k ∧ t = setKeysOp k s) ∨
    ∃ program q, op = .reset program q ∧ resetOp program q s = .next t := by
  cases op with
  | step r => exact .inl ⟨r, rfl, h⟩
  | tick => exact .inr (.inl ⟨rfl, (Host.Outcome.next.inj h).symm⟩)
  | setKeys k => exact .inr (.inr (.inl ⟨k, rfl, (Host.Outcome.next.inj h).symm⟩))
  | reset program q => exact .inr (.inr (.inr ⟨program, q, rfl, h⟩))

/-- A Tick leaves `STATUS` (R252). -/
@[simp] theorem tickOp_status (s : State) : (tickOp s).status = s.status := by rw [tickOp_eq]

/-- A Reset ends in Running (R281). -/
theorem resetOp_status {program : List Byte} {q : Quirks} {s t : State} (h : resetOp program q s = .next t) :
    t.status = .running := by
  obtain ⟨-, rfl⟩ := resetOp_cases h
  rfl

/-! ### Faults are precise (R244) -/

/-- A raise on the advanced state is the fault on the state fetched from (R244). -/
theorem State.raised_advance (s : State) (c : Cause) (n : Nat) : s.advance.raised c n = s.enterFault c n := by
  rw [State.raised, State.advance_pc, add_two_sub_two]
  rfl

/-- A Step from Running that ends in a fault changes `STATUS` and the sampled `rnd` alone (R244). -/
theorem stepOp_fault {s t : State} {r : Option Byte} {c : Cause} {n : Nat} (hrun : s.status = .running)
    (h : stepOp r s = .next t) (hfault : t.status = .faulted c n) :
    t = s.enterFault c n ∨ t = (s.sampleRnd r).enterFault c n := by
  rcases stepOp_cases hrun h with ⟨-, rfl⟩ | ⟨-, -, rfl⟩ | ⟨i, -, -, hexec⟩
  · cases hfault
    exact .inl rfl
  · rw [State.advance_status, State.sampleRnd_status, hrun] at hfault
    cases hfault
  · rcases exec_cases hexec with ⟨d, m, -, rfl⟩ | ⟨-, hcompletes⟩
    · cases hfault
      exact .inr (State.raised_advance _ _ _)
    · rw [hcompletes.status, State.advance_status, State.sampleRnd_status, hrun] at hfault
      cases hfault

/-- Settles O12: of the four operations a Step alone ends in a fault, and it discards every effect but `STATUS`. -/
theorem faultsArePrecise : Obligations.FaultsArePrecise := by
  unfold Obligations.FaultsArePrecise
  intro s t c n hrun hstep hfault
  rw [step_eq] at hstep
  rcases perform_cases hstep with ⟨r, -, hop⟩ | ⟨-, rfl⟩ | ⟨k, -, rfl⟩ | ⟨program, q, -, hop⟩
  · rcases stepOp_fault (s := { s with env := s.env.moved }) hrun hop hfault with rfl | rfl
    · exact ⟨rfl, s.env.moved_beeps, s.env.moved_draws⟩
    · exact ⟨rfl, s.env.moved_beeps, s.env.moved_draws⟩
  · rw [tickOp_status] at hfault
    cases hrun.symm.trans hfault
  · cases hrun.symm.trans hfault
  · cases (resetOp_status hop).symm.trans hfault

/-- Everything a key wait can do (R213). -/
theorem exec_ldVxK_cases {x : Reg} {s t : State} (h : exec (.ldVxK x) s = .next t) :
    (∃ k, lowestKey s.released = some k ∧ t = { s with kw := 0 }.writeV x (BitVec.ofNat 8 k)) ∨
    (lowestKey s.released = none ∧ t = { s with kw := s.keys, pc := s.pc - 2 }) := by
  cases hkey : lowestKey s.released with
  | some k => exact .inl ⟨k, rfl, Host.Outcome.next.inj (h.symm.trans (exec_ldVxK_of_some x hkey))⟩
  | none => exact .inr ⟨rfl, Host.Outcome.next.inj (h.symm.trans (exec_ldVxK_of_none x hkey))⟩

/-! ### Invariants (R9) -/

/-- An invariant of the core: no input, timer or fault touches it, every Reset establishes it, and a Step keeps it,
whether its word is a no-op or an instruction that completes. -/
structure CoreInvariant (P : State → Prop) : Prop where
  inputs : ∀ (s : State) (dt st : Byte) (keys : Word) (status : Status) (env : Environment), P s →
    P { s with dt := dt, st := st, keys := keys, status := status, env := env }
  reset : ∀ (program : List Byte) (q : Quirks) (s t : State), resetOp program q s = .next t → P t
  noop : ∀ s : State, s.fetchable = true → decodeWord s.fetchWord = none → P s → P s.advance
  instr : ∀ (i : Instr) (s t : State), s.status = .running → s.fetchable = true → decodeWord s.fetchWord = some i →
    P s → exec i s.advance = .next t → Completes i s.advance t → P t

namespace CoreInvariant
variable {P : State → Prop} {s t : State}

theorem kept_by_stepOp (hP : CoreInvariant P) {r : Option Byte} (hs : P s) (h : stepOp r s = .next t) : P t := by
  cases hst : s.status with
  | faulted c n =>
    rw [stepOp_faulted hst, Host.Outcome.next.injEq] at h
    exact h ▸ hs
  | running =>
    have hsample : P (s.sampleRnd r) := hP.inputs s s.dt s.st s.keys s.status _ hs
    rcases stepOp_cases hst h with ⟨-, rfl⟩ | ⟨hfetch, hdecode, rfl⟩ | ⟨i, hfetch, hdecode, hexec⟩
    · exact hP.inputs s s.dt s.st s.keys _ s.env hs
    · exact hP.noop _ hfetch hdecode hsample
    · rcases exec_cases hexec with ⟨c, n, -, rfl⟩ | ⟨-, hcompletes⟩
      · rw [State.raised_advance]
        exact hP.inputs _ s.dt s.st s.keys _ _ hsample
      · exact hP.instr i (s.sampleRnd r) t hst hfetch hdecode hsample hexec hcompletes

/-- Every step keeps an invariant of the core. -/
theorem kept_by_step (hP : CoreInvariant P) (hs : P s) (h : step s = .next t) : P t := by
  rw [step_eq] at h
  have hmoved : P { s with env := s.env.moved } := hP.inputs s s.dt s.st s.keys s.status _ hs
  rcases perform_cases h with ⟨r, -, hop⟩ | ⟨-, rfl⟩ | ⟨k, -, rfl⟩ | ⟨program, q, -, hop⟩
  · exact hP.kept_by_stepOp hmoved hop
  · rw [tickOp_eq]
    exact hP.inputs s _ _ s.keys s.status _ hs
  · exact hP.inputs s s.dt s.st k s.status _ hs
  · exact hP.reset program q _ t hop

/-- Every state a run can come to meets an invariant of the core. -/
theorem of_reachable (hP : CoreInvariant P) (h : Reachable s) : P s := by
  induction h with
  | reset s t program q hreset => exact hP.reset program q s t hreset
  | step s t _ hstep ih => exact hP.kept_by_step ih hstep

end CoreInvariant

/-! #### The canonical memory (log entry 8) -/

theorem coreInvariant_mem_wf : CoreInvariant (fun s => s.mem.wf) where
  inputs _ _ _ _ _ _ h := h
  reset program q s t h := by
    obtain ⟨-, rfl⟩ := resetOp_cases h
    exact wf_loadedMemory s.mem.font program
  noop _ _ _ h := h
  instr _ _ _ _ _ _ h _ hcompletes := hcompletes.mem_wf h

/-- Settles O55: an instruction changes memory by stores alone, and a store keeps the canonical form. -/
theorem memoryStaysCanonical : Obligations.MemoryStaysCanonical := by
  unfold Obligations.MemoryStaysCanonical
  intro s t hwf hstep
  exact coreInvariant_mem_wf.kept_by_step hwf hstep

/-! #### The bound of `pc` (R27, R120) -/

/-- Every return address that can still be popped is at most 4096 (R120). -/
def StackBounded (s : State) : Prop := ∀ (k : Nat) (h : k < 16), k < s.sp.val → (s.stack[k]'h).toNat ≤ 4096

/-- The advanced pc of a fetched instruction is at most 4096 (R6, R64). -/
theorem State.advance_pc_le {s : State} (h : s.fetchable = true) : s.advance.pc.toNat ≤ 4096 := by
  rw [State.advance_pc, State.toNat_advance_pc h]
  exact s.fetchable_iff.1 h

/-- A skip goes to 4098 at most (R127). -/
theorem pc_le_of_skip {i : Instr} {s t : State} {b : Bool} (hpc : s.pc.toNat ≤ 4096)
    (hskip : exec i s = .next (s.skipIf b)) (hexec : exec i s = .next t) : t.pc.toNat ≤ 0x10FE := by
  cases hskip.symm.trans hexec
  rw [State.skipIf_eq]
  dsimp only
  split <;> bv_omega

/-- A return that does not fault has popped its `pc` (R120). -/
theorem exec_ret_running {s t : State} (hexec : exec .ret s = .next t) (hrun : t.status = .running) :
    ∃ hsp : 0 < s.sp.val,
      t = { s with sp := ⟨s.sp.val - 1, by omega⟩, pc := s.stack[s.sp.val - 1]'(by omega) } := by
  rcases Nat.eq_zero_or_pos s.sp.val with hempty | hsp
  · cases (exec_ret_of_empty hempty).symm.trans hexec
    cases hrun
  · exact ⟨hsp, Host.Outcome.next.inj (hexec.symm.trans (exec_ret_of_pos hsp))⟩

/-- A call that does not fault has pushed the advanced pc (R122). -/
theorem exec_call_running {nnn : Addr12} {s t : State} (hexec : exec (.call nnn) s = .next t)
    (hrun : t.status = .running) :
    ∃ hsp : s.sp.val < 16,
      t = { s with stack := s.stack.set s.sp.val s.pc hsp, sp := ⟨s.sp.val + 1, by omega⟩, pc := zextAddr nnn } := by
  by_cases hsp : s.sp.val < 16
  · exact ⟨hsp, Host.Outcome.next.inj (hexec.symm.trans (exec_call_of_lt nnn hsp))⟩
  · cases (exec_call_of_full nnn (by omega : s.sp.val = 16)).symm.trans hexec
    cases hrun

/-- A 12-bit target is within the bound of `pc`. -/
theorem zextAddr_le (nnn : Addr12) : (zextAddr nnn).toNat ≤ 0x10FE := by
  have hnnn := nnn.isLt
  rw [toNat_zextAddr]
  omega

/-- R27: where an instruction that transfers control and does not fault leaves `pc`. -/
theorem pc_le_of_transfersControl {i : Instr} {s t : State} (hfetch : s.fetchable = true) (hstack : StackBounded s)
    (hexec : exec i s.advance = .next t) (hrun : t.status = .running) (htransfers : transfersControl i = true) :
    t.pc.toNat ≤ 0x10FE := by
  have hpc := State.advance_pc_le hfetch
  cases i with
  | ret =>
    obtain ⟨hsp, rfl⟩ := exec_ret_running hexec hrun
    have hsp : 0 < s.sp.val := hsp
    exact (hstack (s.sp.val - 1) (by omega) (by omega)).trans (by decide)
  | jp nnn =>
    cases (exec_jp nnn _).symm.trans hexec
    exact zextAddr_le nnn
  | call nnn =>
    obtain ⟨hsp, rfl⟩ := exec_call_running hexec hrun
    exact zextAddr_le nnn
  | jpV0 nnn =>
    cases (exec_jpV0 nnn _).symm.trans hexec
    have hnnn := nnn.isLt
    have hoffset := (s.advance.jumpOffset nnn).isLt
    simp only [toNat_jump]
    omega
  | seImm x nn => exact pc_le_of_skip hpc (exec_seImm x nn _) hexec
  | sneImm x nn => exact pc_le_of_skip hpc (exec_sneImm x nn _) hexec
  | seReg x y => exact pc_le_of_skip hpc (exec_seReg x y _) hexec
  | sneReg x y => exact pc_le_of_skip hpc (exec_sneReg x y _) hexec
  | skp x => exact pc_le_of_skip hpc (exec_skp x _) hexec
  | sknp x => exact pc_le_of_skip hpc (exec_sknp x _) hexec
  | ldVxK x =>
    rcases exec_ldVxK_cases hexec with ⟨-, -, rfl⟩ | ⟨-, rfl⟩
    · exact hpc.trans (by decide)
    · have hpc0 := s.fetchable_iff.1 hfetch
      simp only [State.advance_pc, add_two_sub_two]
      omega
  | _ => cases htransfers

/-- An instruction that does not fault keeps the return addresses bounded: `2NNN` pushes an advanced pc, `00EE` pops. -/
theorem stackBounded_of_exec {i : Instr} {s t : State} (hfetch : s.fetchable = true) (hstack : StackBounded s)
    (hexec : exec i s.advance = .next t) (hrun : t.status = .running) : StackBounded t := by
  intro k hk hlt
  cases i with
  | ret =>
    obtain ⟨hsp, rfl⟩ := exec_ret_running hexec hrun
    have hlt : k < s.sp.val - 1 := hlt
    exact hstack k hk (by omega)
  | call nnn =>
    obtain ⟨hsp, rfl⟩ := exec_call_running hexec hrun
    have hlt : k < s.sp.val + 1 := hlt
    have hsp : s.sp.val < 16 := hsp
    show ((s.stack.set s.sp.val s.advance.pc hsp)[k]'hk).toNat ≤ 4096
    rw [Vector.getElem_set]
    split_ifs with htop
    · exact State.advance_pc_le hfetch
    · exact hstack k hk (by omega)
  | _ =>
    have hframe := exec_frame hexec
    have hsp := hframe.sp rfl
    have hst := hframe.stack rfl
    rw [hsp] at hlt
    simp only [hst]
    exact hstack k hk hlt

theorem coreInvariant_pcBounded : CoreInvariant PcBounded where
  inputs _ _ _ _ _ _ h := h
  reset program q s t h := by
    obtain ⟨-, rfl⟩ := resetOp_cases h
    have hpc : (0x200 : Word).toNat ≤ 0x10FE := by decide
    exact ⟨hpc, fun k _ hk => absurd hk (Nat.not_lt_zero k)⟩
  noop s hfetch _ h := ⟨(State.advance_pc_le hfetch).trans (by decide), h.2⟩
  instr i s t hrun hfetch _ h hexec hcompletes := by
    have hrun' : t.status = .running := hcompletes.status.trans hrun
    refine ⟨?_, stackBounded_of_exec hfetch h.2 hexec hrun'⟩
    cases htransfers : transfersControl i with
    | false =>
      rw [hcompletes.pc htransfers]
      exact (State.advance_pc_le hfetch).trans (by decide)
    | true => exact pc_le_of_transfersControl hfetch h.2 hexec hrun' htransfers

/-- Settles O56: `pc` and the stack stay within their bounds over every operation. -/
theorem pcStaysBounded : Obligations.PcStaysBounded := by
  unfold Obligations.PcStaysBounded
  intro s t hbounded hstep
  exact coreInvariant_pcBounded.kept_by_step hbounded hstep

/-! #### The wait latch (R41) -/

/-- In a state that waits for no key, `KW` is 0. -/
theorem WaitLatched.kw_eq_zero {s : State} (h : WaitLatched s)
    (hnowait : ∀ x, decodeWord s.fetchWord ≠ some (.ldVxK x)) : s.kw = 0 := by
  by_contra hkw
  obtain ⟨-, x, hx⟩ := h hkw
  exact hnowait x hx

theorem waitLatched_of_kw {s : State} (h : s.kw = 0) : WaitLatched s := fun hkw => absurd h hkw

theorem coreInvariant_waitLatched : CoreInvariant WaitLatched where
  inputs _ _ _ _ _ _ h := h
  reset program q s t h := by
    obtain ⟨-, rfl⟩ := resetOp_cases h
    exact waitLatched_of_kw rfl
  noop s _ hdecode h := waitLatched_of_kw (h.kw_eq_zero (by simp [hdecode]))
  instr i s t _ hfetch hdecode h hexec hcompletes := by
    by_cases hwait : ∃ x, i = .ldVxK x
    · obtain ⟨x, rfl⟩ := hwait
      rcases exec_ldVxK_cases hexec with ⟨k, -, rfl⟩ | ⟨-, rfl⟩
      · exact waitLatched_of_kw rfl
      · intro _
        rw [State.advance_pc, add_two_sub_two]
        exact ⟨hfetch, x, hdecode⟩
    · push Not at hwait
      refine waitLatched_of_kw ((hcompletes.kw hwait).trans (h.kw_eq_zero fun x hx => ?_))
      exact hwait x (Option.some_inj.1 (hdecode.symm.trans hx))

/-- Settles O57: only `FX0A` writes a sample into `KW`, and then `pc` stays at it. -/
theorem waitLatchBelongsToAWait : Obligations.WaitLatchBelongsToAWait := by
  unfold Obligations.WaitLatchBelongsToAWait
  intro s t hlatched hstep
  exact coreInvariant_waitLatched.kept_by_step hlatched hstep

/-- Settles O59: each of the three is an invariant of the core. -/
theorem reachableStatesMeetTheInvariants : Obligations.ReachableStatesMeetTheInvariants := by
  unfold Obligations.ReachableStatesMeetTheInvariants
  intro s hs
  exact ⟨coreInvariant_mem_wf.of_reachable hs, coreInvariant_pcBounded.of_reachable hs,
    coreInvariant_waitLatched.of_reachable hs⟩

theorem resetOp_empty : resetOp [] {} State.reset = .next State.reset := rfl

/-- Settles O58: `State.reset` is itself what a Reset gives, so a run can begin with it. -/
theorem resetMeetsTheInvariants : Obligations.ResetMeetsTheInvariants := by
  unfold Obligations.ResetMeetsTheInvariants
  exact reachableStatesMeetTheInvariants _ (.reset _ _ _ _ resetOp_empty)

/-- Above the default font the memory of `State.reset` reads 0. -/
theorem read_reset_of_ge {a : Nat} (ha : 0x200 ≤ a) : State.reset.mem.read a = 0 :=
  dif_neg fun hfont => by
    have : a < 0x050 + 80 := hfont.2
    omega

/-- Settles O21: the empty Reset runs to `State.reset`, whose font ends below 0x200. -/
theorem resetStateIsTheEmptyReset : Obligations.ResetStateIsTheEmptyReset := by
  unfold Obligations.ResetStateIsTheEmptyReset
  exact ⟨resetOp_empty, rfl, rfl, rfl, rfl, fun _ ha => read_reset_of_ge ha⟩

end Sys2Proof.Machine

namespace Sys2Proof.Machine

/-! ### The environment's operations (R5 to R9, R246, R252, R280) -/

/-- A Step as the next operation, on a word that decodes (R6). -/
theorem step_executes {s : State} {i : Instr} {r : Option Byte} (hop : s.nextOp = .step r) (hrun : s.status = .running)
    (hfetch : s.fetchable = true) (hdecode : decodeWord s.fetchWord = some i) :
    step s = exec i { s with pc := s.pc + 2, env := { s.env.moved with rnd := r } } := by
  rw [step_eq, hop]
  exact stepOp_executes (s := { s with env := s.env.moved }) hrun hfetch hdecode r

/-- With the list used up before a tail of Steps, the next operation is a Step with a free `rnd`. -/
theorem State.nextOp_steps {s : State} (hops : s.env.ops = []) (htail : s.env.tail = .steps) :
    s.nextOp = .step none := by
  simp [State.nextOp, hops, htail]

/-- A tail of Steps moves on to itself. -/
theorem Environment.moved_steps {e : Environment} (hops : e.ops = []) (htail : e.tail = .steps) : e.moved = e := by
  simp [Environment.moved, hops, htail]

/-- Settles O7: the Step runs the instruction, and the two other clauses name the schedule's move. -/
theorem stepRunsTheDecodedInstruction : Obligations.StepRunsTheDecodedInstruction := by
  unfold Obligations.StepRunsTheDecodedInstruction
  intro s i hrun hpc hdecode
  have hfetch : s.fetchable = true := s.fetchable_iff.2 hpc
  refine ⟨fun r hop => step_executes hop hrun hfetch hdecode, fun r rest hops => ?_, fun hops htail => ?_⟩
  · rw [step_executes (State.nextOp_cons hops) hrun hfetch hdecode, Environment.moved_cons hops]
  · rw [step_executes (State.nextOp_steps hops htail) hrun hfetch hdecode, Environment.moved_steps hops htail]

/-- A Tick in Faulted does nothing (R246). -/
theorem tickOp_of_not_running {s : State} (h : s.status ≠ .running) : tickOp s = s := by
  simp [tickOp_eq, h]

/-- Settles O13: Step and Tick do nothing, SetKeys leaves `STATUS`, and a Reset ends in Running. -/
theorem faultedStopsForGood : Obligations.FaultedStopsForGood := by
  unfold Obligations.FaultedStopsForGood
  intro s c n hfault
  refine ⟨fun r => stepOp_faulted hfault r, tickOp_of_not_running (by simp [hfault]), fun k => rfl, fun t hstep => ?_⟩
  rw [step_eq] at hstep
  rcases perform_cases hstep with ⟨r, -, hop⟩ | ⟨-, rfl⟩ | ⟨k, -, rfl⟩ | ⟨program, q, hreset, hop⟩
  · rw [stepOp_faulted (s := { s with env := s.env.moved }) hfault, Host.Outcome.next.injEq] at hop
    subst hop
    exact .inl hfault
  · rw [tickOp_status]
    exact .inl hfault
  · exact .inl hfault
  · exact .inr ⟨resetOp_status hop, program, q, hreset⟩

/-- Every Step answers a next state. -/
theorem stepOp_total (r : Option Byte) (s : State) : ∃ t, stepOp r s = .next t := by
  cases hst : s.status with
  | faulted c n => exact ⟨s, stepOp_faulted hst r⟩
  | running =>
    rw [stepOp_running hst]
    split
    · rw [executeWord]
      split
      · exact exec_total _ _
      · exact ⟨_, rfl⟩
    · exact ⟨_, rfl⟩

theorem programFits_iff (program : List Byte) : programFits program = true ↔ program.length ≤ 3584 := by
  simp [programFits]

theorem resetOp_of_fits {program : List Byte} (h : program.length ≤ 3584) (q : Quirks) (s : State) :
    resetOp program q s = .next { State.reset with
      mem := loadedMemory s.mem.font program, quirks := q, env := { s.env with rnd := none } } :=
  if_pos ((programFits_iff program).2 h)

theorem resetOp_of_too_long {program : List Byte} (h : ¬program.length ≤ 3584) (q : Quirks) (s : State) :
    resetOp program q s = .refused (.programTooLong program.length) :=
  if_neg (mt (programFits_iff program).1 h)

/-- Settles O15: of the four operations only a Reset can refuse, and it refuses an oversized program alone. -/
theorem onlyAnOversizedResetIsRefused : Obligations.OnlyAnOversizedResetIsRefused := by
  unfold Obligations.OnlyAnOversizedResetIsRefused
  intro s
  rw [step_eq]
  cases s.nextOp with
  | step r => exact .inl (stepOp_total r _)
  | tick => exact .inl ⟨_, rfl⟩
  | setKeys k => exact .inl ⟨_, rfl⟩
  | reset program q =>
    by_cases hfits : program.length ≤ 3584
    · exact .inl ⟨_, resetOp_of_fits hfits q _⟩
    · exact .inr ⟨program, q, rfl, Nat.lt_of_not_le hfits, resetOp_of_too_long hfits q _⟩

/-! #### Ticks (R252 to R254) -/

/-- Everything Tick does in Running (R252, R254). -/
theorem tickOp_running {s : State} (h : s.status = .running) :
    tickOp s = { s with
      dt := countDown s.dt
      st := countDown s.st
      env := { s.env with beeps := s.env.beeps + if s.st.toNat = 0 then 0 else 1 } } := by
  have hst : (s.st ≠ 0) = (s.st.toNat ≠ 0) := by rw [ne_eq, ← BitVec.toNat_inj]; rfl
  rw [tickOp_eq]
  simp only [h, if_true, true_and, hst]
  split_ifs <;> simp_all

theorem step_tick {s : State} (h : s.nextOp = .tick) : step s = .next (tickOp { s with env := s.env.moved }) := by
  rw [step_eq, h, perform]

/-- Settles O17: `tickOp` on the state whose schedule has moved on, in either status. -/
theorem tickCountsDown : Obligations.TickCountsDown := by
  unfold Obligations.TickCountsDown
  intro s hop
  refine ⟨_, step_tick hop, ?_⟩
  by_cases hrun : s.status = .running
  · rw [tickOp_running (s := { s with env := s.env.moved }) hrun, if_pos hrun]
    refine ⟨rfl, rfl, toNat_countDown s.dt, toNat_countDown s.st, ?_⟩
    simp only [Environment.moved_beeps]
  · rw [tickOp_of_not_running (s := { s with env := s.env.moved }) hrun, if_neg hrun]
    exact ⟨rfl, rfl, rfl, rfl, s.env.moved_beeps⟩

/-- The beeps of one Tick and then of `n` more (R254). -/
theorem beeps_succ (n m : Nat) : (if m = 0 then 0 else 1) + min n (m - 1) = min (n + 1) m := by
  split <;> omega

/-- Settles O18, by induction on the number of Ticks. -/
theorem timersCountTicks : Obligations.TimersCountTicks := by
  unfold Obligations.TimersCountTicks
  intro n
  induction n with
  | zero => exact fun s _ => ⟨rfl, rfl, by simp [ticks]⟩
  | succ n ih =>
    intro s hrun
    obtain ⟨hdt, hst, hframe⟩ := ih (tickOp s) ((tickOp_status s).trans hrun)
    rw [ticks, hdt, hst, hframe, tickOp_running hrun]
    simp only [toNat_countDown, Nat.sub_sub, Nat.add_comm 1 n, Nat.add_assoc, beeps_succ, and_self]

/-! #### Reset (R70, R280 to R284) -/

/-- What memory holds after Reset (R70): the program at 0x200, and the font's image elsewhere. -/
theorem read_loadedMemory (f : Font) {program : List Byte} (h : program.length ≤ 3584) (a : Nat) :
    (loadedMemory f program).read a =
      if h : 0x200 ≤ a ∧ a < 0x200 + program.length then program[a - 0x200]'(by omega) else f.image a :=
  Memory.read_writeBytes program (wf_unlisted f) (by omega) a

/-- The font lies below the program (R69). -/
theorem read_loadedMemory_font (f : Font) {program : List Byte} (hlen : program.length ≤ 3584) (a : Nat) :
    (loadedMemory f program).read a =
      if h : f.base.val ≤ a ∧ a < f.base.val + 80 then f.data[a - f.base.val]'(by omega)
      else if h : 0x200 ≤ a ∧ a < 0x200 + program.length then program[a - 0x200]'(by omega)
      else 0 := by
  have hbase := f.base.isLt
  rw [read_loadedMemory f hlen, Font.image]
  split_ifs
  · omega
  · rfl
  · rfl
  · rfl

theorem State.reset_readV (r : Reg) : State.reset.readV r = 0 := Vector.getElem_replicate _

/-- Settles O19: a program that fits is loaded over the reset image, and every other piece is that of `State.reset`. -/
theorem resetEstablishesTheResetState : Obligations.ResetEstablishesTheResetState := by
  unfold Obligations.ResetEstablishesTheResetState
  intro program q s
  split
  case isFalse hlong => exact resetOp_of_too_long hlong q s
  case isTrue hfits =>
    exact ⟨_, resetOp_of_fits hfits q s, State.reset_readV, rfl, rfl, rfl, fun k _ => Vector.getElem_replicate _,
      rfl, rfl, cellAt_blankDisplay, rfl, rfl, rfl, rfl, wf_loadedMemory _ _, Memory.writeBytes_font _ _ _,
      read_loadedMemory_font _ hfits⟩

/-- Settles O20: `pc` is 0x200, where the first two bytes of the program are loaded. -/
theorem firstFetchIsTheProgramsFirstWord : Obligations.FirstFetchIsTheProgramsFirstWord := by
  unfold Obligations.FirstFetchIsTheProgramsFirstWord
  intro hi lo rest q s hrest
  have hfits : (hi :: lo :: rest).length ≤ 3584 := by simp only [List.length_cons]; omega
  refine ⟨_, resetOp_of_fits hfits q s, rfl, rfl, ?_⟩
  have hhi : (loadedMemory s.mem.font (hi :: lo :: rest)).read 0x200 = hi := by
    rw [read_loadedMemory _ hfits]
    exact dif_pos (by simp)
  have hlo : (loadedMemory s.mem.font (hi :: lo :: rest)).read 0x201 = lo := by
    rw [read_loadedMemory _ hfits]
    exact dif_pos (by simp only [List.length_cons]; omega)
  exact congrArg₂ wordOfBytes hhi hlo

/-! #### The inputs of the core (R36, R38, R250) -/

theorem stepOp_inputs {s t : State} {r : Option Byte} (h : stepOp r s = .next t) :
    t.mem.font = s.mem.font ∧ t.quirks = s.quirks ∧ t.keys = s.keys := by
  cases hst : s.status with
  | faulted c n =>
    rw [stepOp_faulted hst, Host.Outcome.next.injEq] at h
    exact h ▸ ⟨rfl, rfl, rfl⟩
  | running =>
    rcases stepOp_cases hst h with ⟨-, rfl⟩ | ⟨-, -, rfl⟩ | ⟨i, -, -, hexec⟩
    · exact ⟨rfl, rfl, rfl⟩
    · exact ⟨rfl, rfl, rfl⟩
    · have hframe := exec_frame hexec
      exact ⟨hframe.font, hframe.quirks, hframe.keys⟩

/-- Settles O54: a Step and a Tick leave the three inputs, SetKeys writes `KEYS`, and a Reset takes its quirks. -/
theorem inputsBelongToTheEnvironment : Obligations.InputsBelongToTheEnvironment := by
  unfold Obligations.InputsBelongToTheEnvironment
  intro s t hstep
  rw [step_eq] at hstep
  rcases perform_cases hstep with ⟨r, -, hop⟩ | ⟨-, rfl⟩ | ⟨k, hkeys, rfl⟩ | ⟨program, q, hreset, hop⟩
  · obtain ⟨hfont, hquirks, hkeys⟩ := stepOp_inputs hop
    exact ⟨hfont, fun h => absurd hquirks h, fun h => absurd hkeys h⟩
  · rw [tickOp_eq]
    exact ⟨rfl, fun h => absurd rfl h, fun h => absurd rfl h⟩
  · exact ⟨rfl, fun h => absurd rfl h, fun _ => .inl ⟨k, hkeys, rfl⟩⟩
  · obtain ⟨-, rfl⟩ := resetOp_cases hop
    exact ⟨Memory.writeBytes_font _ _ _, fun _ => ⟨program, q, hreset, rfl⟩, fun _ => .inr ⟨program, q, hreset, rfl⟩⟩

end Sys2Proof.Machine

namespace Sys2Proof.Machine

/-! ### Call, return and the offset jump (R120, R122, R128) -/

/-- Settles O23: a full stack raises, and any other takes the advanced pc at its top. -/
theorem callPushesTheAdvancedPc : Obligations.CallPushesTheAdvancedPc := by
  unfold Obligations.CallPushesTheAdvancedPc
  intro nnn s
  by_cases hfull : s.sp.val = 16
  · exact ⟨_, exec_call_of_full nnn hfull, by rw [if_pos hfull]; rfl⟩
  · have hlt : s.sp.val < 16 := by omega
    refine ⟨_, exec_call_of_lt nnn hlt, ?_⟩
    rw [if_neg hfull]
    refine ⟨rfl, toNat_zextAddr nnn, rfl, fun k hk => ?_⟩
    simp only [Vector.getElem_set, eq_comm]

/-- Settles O24: an empty stack raises, and any other gives its top to `pc`. -/
theorem returnPopsPc : Obligations.ReturnPopsPc := by
  unfold Obligations.ReturnPopsPc
  intro s
  by_cases hempty : s.sp.val = 0
  · exact ⟨_, exec_ret_of_empty hempty, by rw [if_pos hempty]; rfl⟩
  · exact ⟨_, exec_ret_of_pos (Nat.pos_of_ne_zero hempty), by rw [if_neg hempty]; exact ⟨rfl, rfl, rfl⟩⟩

/-- Settles O25: the return pops the entry that the call pushed. -/
theorem returnResumesAfterTheCall : Obligations.ReturnResumesAfterTheCall := by
  unfold Obligations.ReturnResumesAfterTheCall
  intro nnn s hlt
  refine ⟨_, exec_call_of_lt nnn hlt, fun p v => (exec_ret_of_pos (Nat.succ_pos _)).trans ?_⟩
  simp only [Nat.add_sub_cancel, Vector.getElem_set_self]

/-- Settles O29: the jump writes `pc` alone, with an exact sum. -/
theorem offsetJumpIsExact : Obligations.OffsetJumpIsExact := by
  unfold Obligations.OffsetJumpIsExact
  intro nnn s
  refine ⟨_, exec_jpV0 nnn s, rfl, ?_⟩
  rw [toNat_jump, State.jumpOffset, jumpReg_eq]

/-! ### Arithmetic with a flag (R140, R147 to R151) -/

theorem toNat_flagByte (f : Bool) : (flagByte f).toNat = if f = true then 1 else 0 := by cases f <;> rfl

/-- The result and the flag, by value (R140). -/
theorem State.toNat_readV_writeWithFlag (s : State) (x r : Reg) (b : Byte) (f : Bool) :
    ((s.writeWithFlag x b f).readV r).toNat =
      if r = 15 then (if f = true then 1 else 0) else if r = x then b.toNat else (s.readV r).toNat := by
  rw [State.readV_writeWithFlag, apply_ite BitVec.toNat, apply_ite BitVec.toNat, toNat_flagByte]

/-- Settles O32: the sum is taken modulo 256, and the flag is the carry of the exact sum. -/
theorem addSetsCarry : Obligations.AddSetsCarry := by
  unfold Obligations.AddSetsCarry
  intro x y s
  refine ⟨_, exec_addReg x y s, s.writeWithFlag_eq x _ _, fun r => ?_⟩
  simp only [State.toNat_readV_writeWithFlag, carryOut, decide_eq_true_eq, BitVec.toNat_add]

/-- A difference modulo 256, with the borrow added beforehand. -/
theorem toNat_sub_byte (a b : Byte) : (a - b).toNat = (a.toNat + 256 - b.toNat) % 256 := by
  have := b.isLt
  rw [BitVec.toNat_sub]
  omega

/-- Settles O33: each difference is taken modulo 256, and the flag compares the exact operands. -/
theorem subtractSetsNotBorrow : Obligations.SubtractSetsNotBorrow := by
  unfold Obligations.SubtractSetsNotBorrow
  intro x y s
  constructor
  · refine ⟨_, exec_subReg x y s, s.writeWithFlag_eq x _ _, fun r => ?_⟩
    simp only [State.toNat_readV_writeWithFlag, noBorrow, decide_eq_true_eq, toNat_sub_byte]
  · refine ⟨_, exec_subn x y s, s.writeWithFlag_eq x _ _, fun r => ?_⟩
    simp only [State.toNat_readV_writeWithFlag, noBorrow, decide_eq_true_eq, toNat_sub_byte]

theorem State.toNat_shiftOperand (s : State) (x y : Reg) :
    (s.shiftOperand x y).toNat =
      if s.quirks.shiftUsesVY = true then (s.readV y).toNat else (s.readV x).toNat := by
  rw [State.shiftOperand, apply_ite BitVec.toNat]

theorem toNat_shiftRight_one (b : Byte) : (b >>> 1).toNat = b.toNat / 2 := by
  rw [BitVec.toNat_ushiftRight, Nat.shiftRight_one]

theorem toNat_shiftLeft_one (b : Byte) : (b <<< 1).toNat = 2 * b.toNat % 256 := by
  rw [BitVec.toNat_shiftLeft, Nat.shiftLeft_eq, Nat.pow_one, Nat.mul_comm]

/-- The bit that `8XY6` shifts out is the remainder of the halving. -/
theorem ite_shiftedOutRight (b : Byte) : (if shiftedOutRight b = true then 1 else 0) = b.toNat % 2 := by
  rw [shiftedOutRight_eq]
  simp only [decide_eq_true_eq]
  split <;> omega

/-- The bit that `8XYE` shifts out is the top bit. -/
theorem ite_shiftedOutLeft (b : Byte) : (if shiftedOutLeft b = true then 1 else 0) = b.toNat / 128 := by
  have := b.isLt
  rw [shiftedOutLeft_eq]
  simp only [decide_eq_true_eq]
  split <;> omega

/-- Settles O34: both forms shift the quirk's operand, and the flag is the bit it loses. -/
theorem shiftsSetTheBitShiftedOut : Obligations.ShiftsSetTheBitShiftedOut := by
  unfold Obligations.ShiftsSetTheBitShiftedOut
  intro x y s a ha
  rw [← State.toNat_shiftOperand] at ha
  subst ha
  constructor
  · refine ⟨_, exec_shr x y s, s.writeWithFlag_eq x _ _, fun r => ?_⟩
    rw [State.toNat_readV_writeWithFlag, ite_shiftedOutRight, toNat_shiftRight_one]
  · refine ⟨_, exec_shl x y s, s.writeWithFlag_eq x _ _, fun r => ?_⟩
    rw [State.toNat_readV_writeWithFlag, ite_shiftedOutLeft, toNat_shiftLeft_one]

/-! ### The random byte and the index sum (R152, R171) -/

theorem State.rndByte_eq {s : State} {b : Byte}
    (h : s.env.rnd = some b ∨ (s.env.rnd = none ∧ b = Config.freeRnd s.env.draws)) : s.rndByte = b := by
  unfold State.rndByte
  rcases h with hgiven | ⟨hfree, rfl⟩
  · rw [hgiven]
  · rw [hfree]

/-- Settles O35: one register write of the masked byte, and one more draw. -/
theorem randomByteIsMasked : Obligations.RandomByteIsMasked := by
  unfold Obligations.RandomByteIsMasked
  intro x nn s b hb
  refine ⟨_, exec_rnd x nn s, rfl, fun r k => ?_⟩
  rw [State.getLsbD_readV_writeV, State.rndByte_eq hb, BitVec.getLsbD_and]
  rfl

/-- The index sum is taken modulo 65536 (R171). -/
theorem toNat_add_setWidth (i : Word) (b : Byte) : (i + b.setWidth 16).toNat = (i.toNat + b.toNat) % 65536 := by
  have := b.isLt
  rw [BitVec.toNat_add, BitVec.toNat_setWidth, Nat.mod_eq_of_lt (by omega : b.toNat < 2 ^ 16)]

/-- Settles O37: `I` takes the sum, and `VF` alone is written besides. -/
theorem addToIndexFlagsOverflow : Obligations.AddToIndexFlagsOverflow := by
  unfold Obligations.AddToIndexFlagsOverflow
  intro x s
  refine ⟨_, exec_addI x s, rfl, toNat_add_setWidth s.i _, fun r => ?_⟩
  rw [State.toNat_readV_writeV, toNat_flagByte]
  simp only [indexOverflow, decide_eq_true_eq]
  rfl

/-! ### Stores and loads (R173 to R177) -/

/-- A block store is read back byte by byte. -/
theorem Memory.read_writeBytes_add {m : Memory} (h : m.wf) {a : Nat} {bs : List Byte} (ha : a + bs.length ≤ 4096)
    {k : Nat} (hk : k < bs.length) : (m.writeBytes a bs).read (a + k) = bs[k] := by
  rw [Memory.read_writeBytes bs h ha, dif_pos (by omega)]
  simp only [Nat.add_sub_cancel_left]

/-- A block store leaves every address outside the block. -/
theorem Memory.read_writeBytes_outside {m : Memory} (h : m.wf) {a : Nat} {bs : List Byte} (ha : a + bs.length ≤ 4096)
    {c : Nat} (hc : c < a ∨ a + bs.length ≤ c) : (m.writeBytes a bs).read c = m.read c := by
  rw [Memory.read_writeBytes bs h ha, dif_neg (by omega)]

/-- Settles O39: a checked store of three bytes, each below 256. -/
theorem decimalDigitsAreStored : Obligations.DecimalDigitsAreStored := by
  unfold Obligations.DecimalDigitsAreStored
  intro x s hwf
  by_cases hgt : s.i.toNat + 2 > 4095
  · exact ⟨_, (exec_ldB x s).trans (State.checked_of_gt hgt), by rw [if_pos hgt]⟩
  · refine ⟨_, (exec_ldB x s).trans (State.checked_of_le (by omega)), ?_⟩
    rw [if_neg hgt]
    have hb := (s.readV x).isLt
    have hlen : s.i.toNat + (decimalDigits (s.readV x)).length ≤ 4096 := by
      show s.i.toNat + 3 ≤ 4096
      omega
    have hread {k : Nat} (hk : k < 3) := Memory.read_writeBytes_add hwf hlen hk
    refine ⟨rfl, ?_, ?_, ?_, fun a ha => Memory.read_writeBytes_outside hwf hlen ?_⟩
    · refine (congrArg BitVec.toNat (hread (k := 0) (by decide))).trans (Nat.mod_eq_of_lt ?_)
      omega
    · refine (congrArg BitVec.toNat (hread (k := 1) (by decide))).trans (Nat.mod_eq_of_lt ?_)
      omega
    · refine (congrArg BitVec.toNat (hread (k := 2) (by decide))).trans (Nat.mod_eq_of_lt ?_)
      omega
    · show a < s.i.toNat ∨ s.i.toNat + 3 ≤ a
      omega

/-- `I` after a block access in range, by value (R175). -/
theorem State.toNat_nextIndex {s : State} {x : Reg} (h : s.i.toNat + x.toNat ≤ 4095) :
    (s.nextIndex x).toNat =
      if s.quirks.incrementIndex = true then s.i.toNat + x.toNat + 1 else s.i.toNat := by
  rw [State.nextIndex, apply_ite BitVec.toNat, BitVec.toNat_ofNat, Nat.mod_eq_of_lt (by omega)]

section
variable {s : State} {x : Reg} (hwf : s.mem.wf) (hrange : s.i.toNat + x.toNat ≤ 4095)
include hwf hrange

/-- What `FX55` stores (R176). -/
theorem read_storeRegs {r : Reg} (hr : r.toNat ≤ x.toNat) :
    (s.mem.writeBytes s.i.toNat (s.readBlock 0 (x.toNat + 1))).read (s.i.toNat + r.toNat) = s.readV r := by
  have hlen : s.i.toNat + (s.readBlock 0 (x.toNat + 1)).length ≤ 4096 := by
    rw [State.length_readBlock]
    omega
  rw [Memory.read_writeBytes_add hwf hlen (by rw [State.length_readBlock]; omega), State.getElem_readBlock,
    Nat.zero_add, BitVec.ofNat_toNat, BitVec.setWidth_eq]

/-- What `FX55` leaves (R176). -/
theorem read_storeRegs_outside {a : Nat} (ha : a < s.i.toNat ∨ s.i.toNat + x.toNat < a) :
    (s.mem.writeBytes s.i.toNat (s.readBlock 0 (x.toNat + 1))).read a = s.mem.read a := by
  apply Memory.read_writeBytes_outside hwf <;> rw [State.length_readBlock] <;> omega

end

/-- What `FX65` loads, and what it leaves (R177). -/
theorem readV_loadRegs (s : State) (x r : Reg) :
    (s.writeBlock 0 (s.mem.readBytes s.i.toNat (x.toNat + 1))).readV r =
      if r.toNat ≤ x.toNat then s.mem.read (s.i.toNat + r.toNat) else s.readV r := by
  have hx := x.isLt
  rw [State.readV_writeBlock _ _ _ _ (by rw [Memory.length_readBytes]; omega)]
  simp only [Memory.length_readBytes, Memory.getElem_readBytes, Nat.zero_le, true_and, Nat.zero_add, Nat.sub_zero,
    Nat.lt_succ_iff, dite_eq_ite]

/-- Settles O40: a checked block store, then the index update. -/
theorem blockStore : Obligations.BlockStore := by
  unfold Obligations.BlockStore
  intro x s hwf
  by_cases hgt : s.i.toNat + x.toNat > 4095
  · exact ⟨_, (exec_storeRegs x s).trans (State.checked_of_gt hgt), by rw [if_pos hgt]⟩
  · have hrange : s.i.toNat + x.toNat ≤ 4095 := Nat.not_lt.1 hgt
    refine ⟨_, (exec_storeRegs x s).trans (State.checked_of_le hrange), ?_⟩
    rw [if_neg hgt]
    exact ⟨rfl, State.toNat_nextIndex hrange, fun r hr => read_storeRegs hwf hrange hr,
      fun a ha => read_storeRegs_outside hwf hrange ha⟩

/-- Settles O41: a checked block load, then the index update. -/
theorem blockLoad : Obligations.BlockLoad := by
  unfold Obligations.BlockLoad
  intro x s
  by_cases hgt : s.i.toNat + x.toNat > 4095
  · exact ⟨_, (exec_loadRegs x s).trans (State.checked_of_gt hgt), by rw [if_pos hgt]⟩
  · have hrange : s.i.toNat + x.toNat ≤ 4095 := Nat.not_lt.1 hgt
    refine ⟨_, (exec_loadRegs x s).trans (State.checked_of_le hrange), ?_⟩
    rw [if_neg hgt]
    exact ⟨rfl, State.toNat_nextIndex hrange, readV_loadRegs s x⟩

theorem State.nextIndex_of_not_quirk {s : State} (h : s.quirks.incrementIndex = false) (x : Reg) :
    s.nextIndex x = s.i := by
  rw [State.nextIndex, h, if_neg Bool.false_ne_true]

/-- Settles O42: with the quirk off `I` stays at the block, so the load reads the bytes stored. -/
theorem blockLoadInvertsBlockStore : Obligations.BlockLoadInvertsBlockStore := by
  unfold Obligations.BlockLoadInvertsBlockStore
  intro x s hwf hquirk hrange
  have hstore := (exec_storeRegs x s).trans (State.checked_of_le hrange)
  rw [State.nextIndex_of_not_quirk hquirk] at hstore
  refine ⟨_, hstore, fun v => ?_⟩
  have hload := (exec_loadRegs x _).trans (State.checked_of_le (s := { s with
    v := v, mem := s.mem.writeBytes s.i.toNat (s.readBlock 0 (x.toNat + 1)) }) hrange)
  rw [State.nextIndex_of_not_quirk (by exact hquirk)] at hload
  refine ⟨_, hload, rfl, fun r hr => ?_⟩
  refine (readV_loadRegs _ x r).trans ?_
  rw [if_pos hr]
  exact read_storeRegs hwf hrange hr

/-- Settles O43: over one font, the lists of cells are determined by what they read as. -/
theorem canonicalMemoriesThatReadAlikeAreEqual : Obligations.CanonicalMemoriesThatReadAlikeAreEqual := by
  unfold Obligations.CanonicalMemoriesThatReadAlikeAreEqual
  rintro ⟨f, l⟩ ⟨g, k⟩ hl hk hfont hread
  subst hfont
  rw [cells_ext hl hk hread]

/-- Settles O10: the first two registers stored are the two bytes fetched. -/
theorem storedCodeIsFetchedNext : Obligations.StoredCodeIsFetchedNext := by
  unfold Obligations.StoredCodeIsFetchedNext
  intro x s hwf hi hx hrange
  refine ⟨_, (exec_storeRegs x s).trans (State.checked_of_le hrange), rfl, ?_⟩
  have h0 := read_storeRegs hwf hrange (r := 0) (Nat.zero_le _)
  have h1 := read_storeRegs hwf hrange (r := 1) hx
  rw [State.fetchWord, toNat_wordOfBytes, ← hi, ← h0, ← h1]
  rfl

end Sys2Proof.Machine

namespace Sys2Proof.Machine

/-! ### The draw (R192) -/

/-- The state after a draw that does not fault (R192). -/
def State.afterDraw (s : State) (x y : Reg) (n : Nibble) : State :=
  { s with disp := (s.drawn x y n).1 }.writeV 15 (flagByte (s.drawn x y n).2)

/-- Do the rows that a draw reads lie in memory (R174, R192)? -/
def State.DrawInRange (s : State) (y : Reg) (n : Nibble) : Prop :=
  s.drawnRows y n = 0 ∨ s.i.toNat + s.drawnRows y n ≤ 4096

theorem exec_drw_of_inRange (x : Reg) {y : Reg} {n : Nibble} {s : State} (h : s.DrawInRange y n) :
    exec (.drw x y n) s = .next (s.afterDraw x y n) := by
  by_cases hrows : s.drawnRows y n = 0
  · rw [exec_drw_of_no_rows x hrows, State.afterDraw, State.drawn_of_no_rows x hrows]
    rfl
  · rw [exec_drw_of_rows x hrows, State.checked_of_le, State.afterDraw]
    have := h.resolve_left hrows
    omega

theorem exec_drw_of_not_inRange (x : Reg) {y : Reg} {n : Nibble} {s : State} (h : ¬s.DrawInRange y n) :
    exec (.drw x y n) s = .next (s.raised .dataAddressOutOfRange (max s.i.toNat 4096)) := by
  rw [State.DrawInRange, not_or] at h
  obtain ⟨hrows, hrange⟩ := h
  rw [exec_drw_of_rows x hrows, State.checked_of_gt, State.raised]
  omega

@[simp] theorem State.afterDraw_disp (s : State) (x y : Reg) (n : Nibble) :
    (s.afterDraw x y n).disp = (s.drawn x y n).1 := rfl

theorem State.afterDraw_readV (s : State) (x y : Reg) (n : Nibble) {r : Reg} (hr : r ≠ 15) :
    (s.afterDraw x y n).readV r = s.readV r := readV_writeV_flag rfl hr _

theorem State.afterDraw_VF (s : State) (x y : Reg) (n : Nibble) :
    (s.afterDraw x y n).readV 15 = flagByte (s.drawn x y n).2 := State.readV_writeV_same _ _ _

theorem flagByte_eq_one {f : Bool} : flagByte f = 1 ↔ f = true := by cases f <;> decide

theorem flagByte_eq_zero {f : Bool} : flagByte f = 0 ↔ f = false := by cases f <;> decide

/-- Settles O45: out of range the draw raises; in range its pixels and its hit are those of the sprite. -/
theorem drawTogglesTheSpritesPixels : Obligations.DrawTogglesTheSpritesPixels := by
  unfold Obligations.DrawTogglesTheSpritesPixels
  intro x y n s rows hrows
  change rows = s.drawnRows y n at hrows
  subst hrows
  by_cases hin : s.DrawInRange y n
  · have hcond : ¬(s.drawnRows y n ≠ 0 ∧ s.i.toNat + s.drawnRows y n - 1 > 4095) := by
      unfold State.DrawInRange at hin
      omega
    refine ⟨_, exec_drw_of_inRange x hin, ?_⟩
    rw [if_neg hcond]
    refine ⟨rfl, fun col row hcol hrow => pixelAt_drawn s x y n hcol hrow, fun r hr => s.afterDraw_readV x y n hr,
      fun hhit => ?_, fun hmiss => ?_⟩
    · rw [State.afterDraw_VF, flagByte_eq_one, drawn_hit]
      exact hhit
    · rw [State.afterDraw_VF, flagByte_eq_zero, Bool.eq_false_iff, ne_eq, drawn_hit]
      rintro ⟨col, row, hcol, hrow, hon, hlit⟩
      rw [hmiss col row hcol hrow hon] at hlit
      cases hlit
  · have hcond : s.drawnRows y n ≠ 0 ∧ s.i.toNat + s.drawnRows y n - 1 > 4095 := by
      unfold State.DrawInRange at hin
      omega
    refine ⟨_, exec_drw_of_not_inRange x hin, ?_⟩
    rw [if_pos hcond]
    rfl

section
variable {x y : Reg} {n : Nibble} {s t : State} (hi : t.i = s.i) (hy : t.readV y = s.readV y)
include hi hy

/-- The range of a draw depends on `I` and `V[Y]` alone. -/
theorem State.DrawInRange.congr (h : s.DrawInRange y n) : t.DrawInRange y n := by
  unfold State.DrawInRange State.drawnRows State.startRow at *
  rwa [hi, hy]

/-- The sprite of a draw depends on `I`, `MEM`, `V[X]` and `V[Y]` alone. -/
theorem State.spritePixel_congr (hmem : t.mem = s.mem) (hx : t.readV x = s.readV x) (col row : Nat) :
    t.spritePixel x y n col row = s.spritePixel x y n col row := by
  unfold State.spritePixel
  rw [hi, hmem, hx, hy]

end

/-- Settles O46: the second draw has the same sprite, so it toggles each pixel back, and hits where the first draw lit
a pixel that was off. -/
theorem drawingTwiceRestoresTheDisplay : Obligations.DrawingTwiceRestoresTheDisplay := by
  unfold Obligations.DrawingTwiceRestoresTheDisplay
  intro x y n s hx hy hrange
  have hin : s.DrawInRange y n := by
    rcases hrange with rfl | hle
    · exact .inl (Nat.zero_min _)
    · exact .inr hle
  have hreadY : (s.afterDraw x y n).readV y = s.readV y := s.afterDraw_readV x y n hy
  have hsprite := State.spritePixel_congr (n := n) (s := s) (t := s.afterDraw x y n) rfl hreadY rfl
    (s.afterDraw_readV x y n hx)
  have hin' := State.DrawInRange.congr (s := s) (t := s.afterDraw x y n) rfl hreadY hin
  refine ⟨_, _, exec_drw_of_inRange x hin, exec_drw_of_inRange x hin', ?_, ?_⟩
  · refine display_ext_pixel fun col row hcol hrow => ?_
    rw [State.afterDraw_disp, pixelAt_drawn _ x y n hcol hrow, hsprite, State.afterDraw_disp,
      pixelAt_drawn s x y n hcol hrow, Bool.xor_assoc, Bool.xor_self, Bool.xor_false]
  · rw [State.afterDraw_VF, flagByte_eq_one, drawn_hit]
    refine exists₂_congr fun col row => and_congr_right fun hcol => and_congr_right fun hrow => ?_
    rw [hsprite, State.afterDraw_disp, pixelAt_drawn s x y n hcol hrow, and_comm]
    refine and_congr_right fun hlit => ?_
    rw [hlit, Bool.xor_true, Bool.not_eq_true']

/-! ### Keys (R210, R211, R213, R216) -/

theorem State.held_iff (s : State) (k : Byte) :
    s.held k = true ↔ k.toNat < 16 ∧ s.keys.toNat / 2 ^ k.toNat % 2 = 1 := by
  rw [State.held, Bool.and_eq_true, decide_eq_true_eq, Nat.le_iff_lt_add_one, BitVec.getLsbD,
    Nat.testBit_eq_decide_div_mod_eq, decide_eq_true_eq]

/-- Settles O47: both forms are skips on `held`, whose meaning in arithmetic is `held_iff`. -/
theorem keySkips : Obligations.KeySkips := by
  unfold Obligations.KeySkips
  intro x s
  constructor
  · rw [exec_skp, State.skipIf_eq]
    simp only [State.held_iff]
  · rw [exec_sknp, State.skipIf_eq]
    simp only [Bool.not_eq_true', Bool.eq_false_iff, ne_eq, State.held_iff, ite_not]

/-- A key of the last sample is not released iff it is still held (R213). -/
theorem State.released_eq_false (s : State) {k : Nat} (hk : k < 16) :
    s.released.getLsbD k = false ↔ (s.kw.getLsbD k = true → s.keys.getLsbD k = true) := by
  rw [s.getLsbD_released hk]
  cases s.kw.getLsbD k <;> simp

theorem State.lowestKey_released_eq_none (s : State) :
    lowestKey s.released = none ↔ ∀ k, k < 16 → s.kw.getLsbD k = true → s.keys.getLsbD k = true := by
  rw [lowestKey_eq_none]
  exact forall₂_congr fun k hk => s.released_eq_false hk

theorem State.lowestKey_released_eq_some {s : State} {k : Nat} (hk : k < 16) (hheld : s.kw.getLsbD k = true)
    (hnow : s.keys.getLsbD k = false) (hlower : ∀ j, j < k → s.kw.getLsbD j = true → s.keys.getLsbD j = true) :
    lowestKey s.released = some k := by
  refine lowestKey_eq_some.2 ⟨hk, ?_, fun j hj => (s.released_eq_false (hj.trans hk)).2 (hlower j hj)⟩
  rw [s.getLsbD_released hk, hheld, hnow]
  rfl

/-- Settles O49: the wait goes on iff no key of the sample is released, and otherwise takes the lowest one. -/
theorem keyWaitEndsOnARelease : Obligations.KeyWaitEndsOnARelease := by
  unfold Obligations.KeyWaitEndsOnARelease
  intro x s
  cases hkey : lowestKey s.released with
  | none =>
    refine ⟨_, exec_ldVxK_of_none x hkey, fun _ => rfl, fun k hk hheld hnow _ => ?_⟩
    have := s.lowestKey_released_eq_none.1 hkey k hk hheld
    rw [hnow] at this
    cases this
  | some k =>
    refine ⟨_, exec_ldVxK_of_some x hkey, fun hall => ?_, fun j hj hheld hnow hlower => ?_⟩
    · cases hkey.symm.trans (s.lowestKey_released_eq_none.2 hall)
    · cases hkey.symm.trans (State.lowestKey_released_eq_some hj hheld hnow hlower)
      exact ⟨rfl, fun r => State.readV_writeV _ x r _⟩

/-! ### The wait as a spin (R213) -/

/-- A key wait that has begun: `FX0A` at `pc`, with no sample or with the keys held now (R213, R41). -/
structure Waits (x : Reg) (s : State) : Prop where
  running : s.status = .running
  fetchable : s.fetchable = true
  decodes : decodeWord s.fetchWord = some (.ldVxK x)
  sample : s.kw = 0 ∨ s.kw = s.keys

/-- What the Steps and Ticks `ops` of a wait lead to: only the Ticks' own effects and the sample have changed. -/
structure Spun (ops : List Op) (s t : State) : Prop where
  frame : t = { s with kw := t.kw, dt := t.dt, st := t.st, env := t.env }
  tail : t.env.tail = s.env.tail
  draws : t.env.draws = s.env.draws
  kw : t.kw = s.kw ∨ t.kw = s.keys
  sampled : (∃ r, Op.step r ∈ ops) → t.kw = s.keys
  dt : t.dt.toNat = s.dt.toNat - ops.count .tick
  st : t.st.toNat = s.st.toNat - ops.count .tick

theorem Spun.nil (s : State) : Spun [] s s where
  frame := rfl
  tail := rfl
  draws := rfl
  kw := .inl rfl
  sampled := by simp
  dt := by simp
  st := by simp

theorem Spun.keys {ops : List Op} {s t : State} (h : Spun ops s t) : t.keys = s.keys := by rw [h.frame]

theorem Spun.waits {ops : List Op} {s t : State} {x : Reg} (h : Spun ops s t) (hw : Waits x s) : Waits x t where
  running := by rw [h.frame]; exact hw.running
  fetchable := by rw [h.frame]; exact hw.fetchable
  decodes := by rw [h.frame]; exact hw.decodes
  sample := by
    rw [h.keys]
    rcases h.kw with hkw | hkw
    · exact hkw ▸ hw.sample
    · exact .inr hkw

/-- The first operation and those after it. -/
theorem Spun.cons {op : Op} {ops : List Op} {s u t : State} (h : Spun [op] s u) (h' : Spun ops u t) :
    Spun (op :: ops) s t where
  frame := calc
    t = { u with kw := t.kw, dt := t.dt, st := t.st, env := t.env } := h'.frame
    _ = { s with kw := t.kw, dt := t.dt, st := t.st, env := t.env } := by rw [h.frame]
  tail := h'.tail.trans h.tail
  draws := h'.draws.trans h.draws
  kw := by
    rcases h'.kw with hkw | hkw
    · exact hkw ▸ h.kw
    · exact .inr (hkw.trans h.keys)
  sampled := by
    rintro ⟨r, hr⟩
    rcases List.mem_cons.1 hr with rfl | hr
    · rcases h'.kw with hkw | hkw
      · exact hkw.trans (h.sampled ⟨r, List.mem_singleton_self _⟩)
      · exact hkw.trans h.keys
    · exact (h'.sampled ⟨r, hr⟩).trans h.keys
  dt := by rw [h'.dt, h.dt, Nat.sub_sub, ← List.count_append, List.singleton_append]
  st := by rw [h'.st, h.st, Nat.sub_sub, ← List.count_append, List.singleton_append]

/-- With these keys held no key of the sample is released. -/
theorem Waits.no_release {x : Reg} {s : State} (h : Waits x s) : lowestKey s.released = none := by
  rw [State.lowestKey_released_eq_none]
  intro k hk hheld
  rcases h.sample with hkw | hkw
  · simp [hkw] at hheld
  · rwa [← hkw]

/-- A Step of a wait samples the keys and stays at the instruction (R213). -/
theorem Waits.stepOp_eq {x : Reg} {s : State} (h : Waits x s) (r : Option Byte) :
    stepOp r s = .next { s with kw := s.keys, env := { s.env with rnd := r } } := by
  rw [stepOp_executes h.running h.fetchable h.decodes,
    exec_ldVxK_of_none x (s := (s.sampleRnd r).advance) h.no_release, State.advance_pc, add_two_sub_two]
  rfl

theorem Spun.of_tick {s : State} (h : s.status = .running) : Spun [.tick] s (tickOp s) where
  frame := by rw [tickOp_eq]
  tail := by rw [tickOp_eq]
  draws := by rw [tickOp_eq]
  kw := by rw [tickOp_eq]; exact .inl rfl
  sampled := by simp
  dt := by rw [tickOp_running h]; exact toNat_countDown s.dt
  st := by rw [tickOp_running h]; exact toNat_countDown s.st

theorem Spun.of_step (s : State) (r : Option Byte) :
    Spun [.step r] s { s with kw := s.keys, env := { s.env with rnd := r } } where
  frame := rfl
  tail := rfl
  draws := rfl
  kw := .inr rfl
  sampled _ := rfl
  dt := rfl
  st := rfl

/-- What a wait leads to does not depend on the operations to come. -/
theorem Spun.of_ops {ops o : List Op} {s t : State} (h : Spun ops { s with env := { s.env with ops := o } } t) :
    Spun ops s t := ⟨h.frame, h.tail, h.draws, h.kw, h.sampled, h.dt, h.st⟩

/-- A Step or a Tick of a wait (R213, R252). -/
theorem Waits.step_spun {x : Reg} {s : State} {op : Op} {rest : List Op} (h : Waits x s)
    (hop : op = .tick ∨ ∃ r, op = .step r) (hops : s.env.ops = op :: rest) :
    ∃ t, step s = .next t ∧ Spun [op] s t ∧ t.env.ops = rest := by
  have hwaits : Waits x { s with env := { s.env with ops := rest } } := ⟨h.running, h.fetchable, h.decodes, h.sample⟩
  rw [step_cons hops]
  rcases hop with rfl | ⟨r, rfl⟩
  · exact ⟨_, rfl, (Spun.of_tick hwaits.running).of_ops, by rw [tickOp_eq]⟩
  · exact ⟨_, hwaits.stepOp_eq r, (Spun.of_step _ r).of_ops, rfl⟩

/-- A wait spins through any list of Steps and Ticks (R213). -/
theorem Waits.run_spun {x : Reg} {rest : List Op} : ∀ (ops : List Op) {s : State}, Waits x s →
    (∀ op ∈ ops, op = .tick ∨ ∃ r, op = .step r) → s.env.ops = ops ++ rest →
    ∃ t, Sys2Proof.core.run ops.length s = .next t ∧ Spun ops s t ∧ t.env.ops = rest := by
  intro ops
  induction ops with
  | nil => exact fun _ _ hops => ⟨_, rfl, .nil _, hops⟩
  | cons op ops ih =>
    intro s hwaits hall hops
    obtain ⟨u, hstep, hspun, huops⟩ := hwaits.step_spun (hall op List.mem_cons_self) hops
    obtain ⟨t, hrun, hspun', htops⟩ :=
      ih (hspun.waits hwaits) (fun o ho => hall o (List.mem_cons_of_mem op ho)) huops
    exact ⟨t, (run_of_step _ hstep).trans hrun, hspun.cons hspun', htops⟩

/-- Settles O50: the wait spins, by induction on the Steps and Ticks. -/
theorem keyWaitSpinsWhileKeysAreConstant : Obligations.KeyWaitSpinsWhileKeysAreConstant := by
  unfold Obligations.KeyWaitSpinsWhileKeysAreConstant
  intro ops rest x s hall hops hrun hpc hdecode hkw
  obtain ⟨t, hrun, hspun, htops⟩ := Waits.run_spun ops ⟨hrun, s.fetchable_iff.2 hpc, hdecode, hkw⟩ hall hops
  exact ⟨t, hrun, hspun.frame, htops, hspun.tail, hspun.draws, hspun.kw, hspun.sampled, hspun.dt, hspun.st⟩

/-! ### Every schedule is a run (R9) -/

/-- The first step of an environment whose first operation is the schedule's, from any state of an execution. -/
theorem step_withSchedule {sched : Nat → Op} {run : Nat → State} (hrun : Execution sched run) {m : Nat} {ops : List Op}
    {tail : Tail} (hfirst : ((run m).withSchedule ops tail).env.scheduled 0 = sched m) :
    step ((run m).withSchedule ops tail) = .next ((run (m + 1)).withSchedule
      ((run m).withSchedule ops tail).env.moved.ops ((run m).withSchedule ops tail).env.moved.tail) := by
  rw [step_eq, ← scheduled_zero, hfirst, Environment.moved_eq]
  exact perform_withSchedule (sched m) (run m) _ _ _ (hrun m)

/-- `n` steps of an environment whose first `n` operations are the schedule's, from any state of an execution. -/
theorem run_withSchedule {sched : Nat → Op} {run : Nat → State} (hrun : Execution sched run) : ∀ (n m : Nat)
    (ops : List Op) (tail : Tail), (∀ k, k < n → ((run m).withSchedule ops tail).env.scheduled k = sched (m + k)) →
    ∃ ops' tail',
      Sys2Proof.core.run n ((run m).withSchedule ops tail) = .next ((run (m + n)).withSchedule ops' tail') ∧
      ∀ k, ((run (m + n)).withSchedule ops' tail').env.scheduled k =
        ((run m).withSchedule ops tail).env.scheduled (n + k) := by
  intro n
  induction n with
  | zero => exact fun m ops tail _ => ⟨ops, tail, rfl, fun k => by rw [Nat.zero_add]; rfl⟩
  | succ n ih =>
    intro m ops tail hsched
    have hstep := step_withSchedule hrun (hsched 0 (Nat.succ_pos n))
    have hmoved := ((run m).withSchedule ops tail).env.scheduled_moved
    obtain ⟨ops', tail', hrest, hleft⟩ := ih (m + 1) _ _ fun k hk =>
      (hmoved k).trans ((hsched (k + 1) (Nat.succ_lt_succ hk)).trans (by rw [Nat.add_right_comm, Nat.add_assoc]))
    refine ⟨ops', tail', ?_, fun k => ?_⟩
    · rw [run_of_step n hstep, hrest, Nat.add_right_comm, Nat.add_assoc]
    · rw [← Nat.add_assoc, Nat.add_right_comm]
      refine (hleft k).trans ((hmoved (n + k)).trans ?_)
      rw [Nat.add_right_comm]

/-- A list holds the first `n` operations of any schedule. -/
theorem scheduled_map_range (s : State) (sched : Nat → Op) (tail : Tail) {n k : Nat} (hk : k < n) :
    (s.withSchedule ((List.range n).map sched) tail).env.scheduled k = sched k := by
  simp [State.withSchedule, Environment.scheduled, hk]

/-- A tail of free operations alone. -/
theorem scheduled_free (s : State) (j n : Nat) :
    (s.withSchedule [] (.free j)).env.scheduled n = Config.freeOp (j + n) := by
  simp [State.withSchedule, Environment.scheduled]

/-- Settles O60: the run from the start of the execution, a list of any `n` operations, and the free tail. -/
theorem everyScheduleIsARun : Obligations.EveryScheduleIsARun := by
  unfold Obligations.EveryScheduleIsARun
  intro sched run hrun n
  refine ⟨fun ops tail hsched => ?_, fun tail => ?_, fun j => scheduled_free _ j n⟩
  · have h := run_withSchedule hrun n 0 ops tail fun k hk => by rw [Nat.zero_add]; exact hsched k hk
    rwa [Nat.zero_add] at h
  · exact ⟨(List.range n).map sched, fun k hk => scheduled_map_range _ sched tail hk⟩

end Sys2Proof.Machine
